-- ==== Sys2Proof/Word.lean ====
section
/-! DEFINITION. The word types of the chip8-rs CORE: bytes, 16-bit words, the encoding's field widths and memory cells' bit vectors (spec/00_scope.md R6, R7; spec/30_encoding.md R51). -/

namespace Sys2Proof

/-- An 8-bit unsigned value, the spec's u8 (R7). -/
abbrev Byte := BitVec 8

/-- A 16-bit unsigned value, the spec's u16 (R7): an instruction word, I, pc or a stack entry. -/
abbrev Word := BitVec 16

/-- A 4-bit field of an instruction word: the class or n (R51). -/
abbrev Nibble := BitVec 4

/-- A register index, a 4-bit field x or y (R51), so always in 0 to 15 (R17). -/
abbrev Reg := BitVec 4

/-- The 12-bit address field nnn (R51). -/
abbrev Addr := BitVec 12

end Sys2Proof
end

