-- ==== Sys2Proof/Syntax.lean ====
section
/-! DEFINITION. The instructions of the chip8-rs CORE: one constructor per row of spec/opcode_table.json, the 26 rows of spec/30_encoding.md R56 and the three UNIMPL rows of R57. -/

namespace Sys2Proof

/-- A decoded instruction (R54): the row it selects and the fields of its word (R51).
Don't-care fields (R58) are kept, so that no bit of a word is lost; no meaning reads them. -/
inductive Instr where
  /-- 00E0, clear display. -/
  | cls
  /-- 00EE, return. -/
  | ret
  /-- 1nnn, jump. -/
  | jp (nnn : Addr)
  /-- 2nnn, call. -/
  | call (nnn : Addr)
  /-- 3xkk, skip if equal immediate. -/
  | seImm (x : Reg) (kk : Byte)
  /-- 4xkk, skip if not equal immediate. -/
  | sneImm (x : Reg) (kk : Byte)
  /-- 5xyn, skip if registers equal; n is ignored. -/
  | seReg (x y : Reg) (n : Nibble)
  /-- 6xkk, load immediate. -/
  | ldImm (x : Reg) (kk : Byte)
  /-- 7xkk, add immediate. -/
  | addImm (x : Reg) (kk : Byte)
  /-- 8xy0, register copy. -/
  | ldReg (x y : Reg)
  /-- 8xy1, bitwise OR. -/
  | orReg (x y : Reg)
  /-- 8xy2, bitwise AND. -/
  | andReg (x y : Reg)
  /-- 8xy3, bitwise XOR. -/
  | xorReg (x y : Reg)
  /-- 8xy4, add with carry. -/
  | addReg (x y : Reg)
  /-- 8xy5, subtract with borrow flag. -/
  | sub (x y : Reg)
  /-- 8xy6, shift right; y is ignored. -/
  | shr (x y : Reg)
  /-- 8xy7, reverse subtract with borrow flag. -/
  | subn (x y : Reg)
  /-- 8xyE, shift left; y is ignored. -/
  | shl (x y : Reg)
  /-- 9xyn, skip if registers not equal; n is ignored. -/
  | sneReg (x y : Reg) (n : Nibble)
  /-- Annn, load address register. -/
  | ldI (nnn : Addr)
  /-- Bnnn, jump with offset V0. -/
  | jpV0 (nnn : Addr)
  /-- Cxkk, random masked. -/
  | rnd (x : Reg) (kk : Byte)
  /-- Dxyn, draw sprite of n rows. -/
  | drw (x y : Reg) (n : Nibble)
  /-- Fx1E, add to address register. -/
  | addI (x : Reg)
  /-- Fx33, store BCD digits. -/
  | ldB (x : Reg)
  /-- Fx55, store register range. -/
  | ldMemI (x : Reg)
  /-- Exxx, the keyboard-skip class: unimplemented (R57). -/
  | unimplKey (nnn : Addr)
  /-- Fx29, character-sprite address: unimplemented (R57). -/
  | unimplGlyph (x : Reg)
  /-- Any other word: unimplemented (R57). -/
  | unimpl (w : Word)
  deriving DecidableEq, Repr

end Sys2Proof
end

