-- ==== Sys2Proof/WellFormed.lean ====
section
/-! DEFINITION. The opcode map of spec/30_encoding.md R56 as match and mask rows, and the well-formedness of an instruction: a catch-all unimplemented word must select no row (R57, R62). Every other constructor's fields have the exact width of the encoding's fields, so nothing else can be ill formed. -/

namespace Sys2Proof

/-- One row of the opcode map: a word selects it when `(w &&& mask) = pattern` (R56). -/
structure OpcodeRow where
  mnemonic : String
  pattern : Word
  mask : Word
  deriving DecidableEq, Repr

/-- Whether a word selects a row (R56). -/
def OpcodeRow.selects (r : OpcodeRow) (w : Word) : Bool := (w &&& r.mask) == r.pattern

/-- Rows of classes 0 to 7 of R56. -/
def opcodeRowsLow : List OpcodeRow :=
  [⟨"CLS", 0x00E0, 0xFFFF⟩, ⟨"RET", 0x00EE, 0xFFFF⟩, ⟨"JP", 0x1000, 0xF000⟩, ⟨"CALL", 0x2000, 0xF000⟩,
   ⟨"SE_IMM", 0x3000, 0xF000⟩, ⟨"SNE_IMM", 0x4000, 0xF000⟩, ⟨"SE_REG", 0x5000, 0xF000⟩,
   ⟨"LD_IMM", 0x6000, 0xF000⟩, ⟨"ADD_IMM", 0x7000, 0xF000⟩]

/-- Rows of class 8 of R56. -/
def opcodeRowsAlu : List OpcodeRow :=
  [⟨"LD_REG", 0x8000, 0xF00F⟩, ⟨"OR", 0x8001, 0xF00F⟩, ⟨"AND", 0x8002, 0xF00F⟩, ⟨"XOR", 0x8003, 0xF00F⟩,
   ⟨"ADD_REG", 0x8004, 0xF00F⟩, ⟨"SUB", 0x8005, 0xF00F⟩, ⟨"SHR", 0x8006, 0xF00F⟩,
   ⟨"SUBN", 0x8007, 0xF00F⟩, ⟨"SHL", 0x800E, 0xF00F⟩]

/-- Rows of classes 9 to F of R56. -/
def opcodeRowsHigh : List OpcodeRow :=
  [⟨"SNE_REG", 0x9000, 0xF000⟩, ⟨"LD_I", 0xA000, 0xF000⟩, ⟨"JP_V0", 0xB000, 0xF000⟩, ⟨"RND", 0xC000, 0xF000⟩,
   ⟨"DRW", 0xD000, 0xF000⟩, ⟨"ADD_I", 0xF01E, 0xF0FF⟩, ⟨"LD_B", 0xF033, 0xF0FF⟩, ⟨"LD_MEM_I", 0xF055, 0xF0FF⟩]

/-- The 26 instruction rows of R56, in the table's order. -/
def opcodeRows : List OpcodeRow := opcodeRowsLow ++ opcodeRowsAlu ++ opcodeRowsHigh

/-- The two unimplemented classes the opcode table gives rows of their own: Exxx and Fx29 (R57). -/
def namedUnimplRows : List OpcodeRow := [⟨"UNIMPL", 0xE000, 0xF000⟩, ⟨"UNIMPL", 0xF029, 0xF0FF⟩]

/-- Whether a word selects an instruction row (R56). -/
def selectsRow (w : Word) : Bool := opcodeRows.any (fun r => r.selects w)

/-- Whether a word selects one of the two named unimplemented rows (R57). -/
def selectsNamedUnimpl (w : Word) : Bool := namedUnimplRows.any (fun r => r.selects w)

/-- An instruction is well formed when its word is one its own row takes: for the catch-all row,
a word that no other row selects (R62). -/
def Instr.wellFormed : Instr → Bool
  | .unimpl w => !selectsRow w && !selectsNamedUnimpl w
  | .cls | .ret | .jp _ | .call _ | .seImm _ _ | .sneImm _ _ | .seReg _ _ _ | .ldImm _ _ | .addImm _ _
  | .ldReg _ _ | .orReg _ _ | .andReg _ _ | .xorReg _ _ | .addReg _ _ | .sub _ _ | .shr _ _ | .subn _ _
  | .shl _ _ | .sneReg _ _ _ | .ldI _ | .jpV0 _ | .rnd _ _ | .drw _ _ _ | .addI _ | .ldB _ | .ldMemI _
  | .unimplKey _ | .unimplGlyph _ => true

end Sys2Proof
end

