-- ==== Sys2Proof/Decode.lean ====
section
/-! DEFINITION. The decoder of spec/30_encoding.md: the fields R51 and R52, the two-level dispatch R55, total on every word (R54); reading an instruction from bytes, big-endian (R50), where too few bytes are rejected by name; and, after it, the encoder written from the same encodings (R56). -/

namespace Sys2Proof

/-- class = w[15:12] (R51). -/
def fieldClass (w : Word) : Nibble := w.extractLsb' 12 4

/-- x = w[11:8] (R51). -/
def fieldX (w : Word) : Reg := w.extractLsb' 8 4

/-- y = w[7:4] (R51). -/
def fieldY (w : Word) : Reg := w.extractLsb' 4 4

/-- n = w[3:0] (R52). -/
def fieldN (w : Word) : Nibble := w.extractLsb' 0 4

/-- kk = w[7:0] (R51). -/
def fieldKK (w : Word) : Byte := w.extractLsb' 0 8

/-- nnn = w[11:0] (R51). -/
def fieldNNN (w : Word) : Addr := w.extractLsb' 0 12

/-- Class 0x0: exactly two words are instructions (R55). -/
def decodeClass0 (w : Word) : Instr :=
  if w = 0x00E0#16 then .cls else if w = 0x00EE#16 then .ret else .unimpl w

/-- Class 0x8: the second level is n = w[3:0] (R55). -/
def decodeClass8 (w : Word) : Instr :=
  match fieldN w with
  | 0x0#4 => .ldReg (fieldX w) (fieldY w)
  | 0x1#4 => .orReg (fieldX w) (fieldY w)
  | 0x2#4 => .andReg (fieldX w) (fieldY w)
  | 0x3#4 => .xorReg (fieldX w) (fieldY w)
  | 0x4#4 => .addReg (fieldX w) (fieldY w)
  | 0x5#4 => .sub (fieldX w) (fieldY w)
  | 0x6#4 => .shr (fieldX w) (fieldY w)
  | 0x7#4 => .subn (fieldX w) (fieldY w)
  | 0xE#4 => .shl (fieldX w) (fieldY w)
  | _ => .unimpl w

/-- Class 0xF: the second level is kk = w[7:0] (R55). -/
def decodeClassF (w : Word) : Instr :=
  match fieldKK w with
  | 0x1E#8 => .addI (fieldX w)
  | 0x29#8 => .unimplGlyph (fieldX w)
  | 0x33#8 => .ldB (fieldX w)
  | 0x55#8 => .ldMemI (fieldX w)
  | _ => .unimpl w

/-- decode(word), total and pure (R54), by the two-level dispatch of R55. -/
def decode (w : Word) : Instr :=
  match fieldClass w with
  | 0x0#4 => decodeClass0 w
  | 0x1#4 => .jp (fieldNNN w)
  | 0x2#4 => .call (fieldNNN w)
  | 0x3#4 => .seImm (fieldX w) (fieldKK w)
  | 0x4#4 => .sneImm (fieldX w) (fieldKK w)
  | 0x5#4 => .seReg (fieldX w) (fieldY w) (fieldN w)
  | 0x6#4 => .ldImm (fieldX w) (fieldKK w)
  | 0x7#4 => .addImm (fieldX w) (fieldKK w)
  | 0x8#4 => decodeClass8 w
  | 0x9#4 => .sneReg (fieldX w) (fieldY w) (fieldN w)
  | 0xA#4 => .ldI (fieldNNN w)
  | 0xB#4 => .jpV0 (fieldNNN w)
  | 0xC#4 => .rnd (fieldX w) (fieldKK w)
  | 0xD#4 => .drw (fieldX w) (fieldY w) (fieldN w)
  | 0xE#4 => .unimplKey (fieldNNN w)
  | _ => decodeClassF w

/-- Why bytes hold no instruction. No word is rejected (R54, R59), only a lack of bytes. -/
inductive DecodeError where
  /-- Fewer than the two bytes of a word (R50). -/
  | truncatedWord
  deriving DecidableEq, Repr

/-- The big-endian word of two bytes: the byte at the lower address is bits 15 to 8 (R50, R39). -/
def wordOfBytes (hi lo : Byte) : Word := hi ++ lo

/-- Bits 15 to 8 of a word, the byte at the lower address (R50). -/
def hiByte (w : Word) : Byte := w.extractLsb' 8 8

/-- Bits 7 to 0 of a word, the byte at the higher address (R50). -/
def loByte (w : Word) : Byte := w.extractLsb' 0 8

/-- The bytes of a word as memory holds them, lowest address first (R50). -/
def bytesOfWord (w : Word) : List Byte := [hiByte w, loByte w]

/-- Reads one instruction from a list of bytes and gives the rest; a decoder always consumes exactly
one word (R60). -/
def decodeBytes : List Byte → Except DecodeError (Instr × List Byte)
  | hi :: lo :: rest => .ok (decode (wordOfBytes hi lo), rest)
  | [_] => .error .truncatedWord
  | [] => .error .truncatedWord

/-- The host's question: what the decoder reads from an instruction whose bits are `w`, the bits from
`nbits` up being 0. The word's bytes are laid out as the hardware stores them (R50). -/
def decodeTableWord (nbits w : Nat) : Option Instr :=
  match decodeBytes (bytesOfWord (BitVec.ofNat 16 (w % 2 ^ nbits))) with
  | .ok (i, _) => some i
  | .error _ => none

/-- The word of an instruction, from R56's encodings and the fields of R51. -/
def encode : Instr → Word
  | .cls => 0x00E0#16
  | .ret => 0x00EE#16
  | .jp nnn => 0x1#4 ++ nnn
  | .call nnn => 0x2#4 ++ nnn
  | .seImm x kk => 0x3#4 ++ x ++ kk
  | .sneImm x kk => 0x4#4 ++ x ++ kk
  | .seReg x y n => 0x5#4 ++ x ++ y ++ n
  | .ldImm x kk => 0x6#4 ++ x ++ kk
  | .addImm x kk => 0x7#4 ++ x ++ kk
  | .ldReg x y => 0x8#4 ++ x ++ y ++ 0x0#4
  | .orReg x y => 0x8#4 ++ x ++ y ++ 0x1#4
  | .andReg x y => 0x8#4 ++ x ++ y ++ 0x2#4
  | .xorReg x y => 0x8#4 ++ x ++ y ++ 0x3#4
  | .addReg x y => 0x8#4 ++ x ++ y ++ 0x4#4
  | .sub x y => 0x8#4 ++ x ++ y ++ 0x5#4
  | .shr x y => 0x8#4 ++ x ++ y ++ 0x6#4
  | .subn x y => 0x8#4 ++ x ++ y ++ 0x7#4
  | .shl x y => 0x8#4 ++ x ++ y ++ 0xE#4
  | .sneReg x y n => 0x9#4 ++ x ++ y ++ n
  | .ldI nnn => 0xA#4 ++ nnn
  | .jpV0 nnn => 0xB#4 ++ nnn
  | .rnd x kk => 0xC#4 ++ x ++ kk
  | .drw x y n => 0xD#4 ++ x ++ y ++ n
  | .addI x => 0xF#4 ++ x ++ 0x1E#8
  | .ldB x => 0xF#4 ++ x ++ 0x33#8
  | .ldMemI x => 0xF#4 ++ x ++ 0x55#8
  | .unimplKey nnn => 0xE#4 ++ nnn
  | .unimplGlyph x => 0xF#4 ++ x ++ 0x29#8
  | .unimpl w => w

/-! ## Assembler syntax (R61) -/

/-- A hexadecimal digit of R61's syntax. -/
def hexDigit (n : Nat) : Char :=
  ['0', '1', '2', '3', '4', '5', '6', '7', '8', '9', 'A', 'B', 'C', 'D', 'E', 'F'].getD n '0'

/-- The `k` lowest hexadecimal digits of a value, the highest first. -/
def hexDigits (k n : Nat) : List Char := (List.range k).reverse.map fun j => hexDigit (n / 16 ^ j % 16)

/-- `Vx`: a register's name, `V0` to `VF`. -/
def regText (r : Reg) : String := String.ofList ('V' :: hexDigits 1 r.toNat)

/-- A value written as `0x` and `k` hexadecimal digits, as R61 writes an unimplemented word. -/
def hexText (k n : Nat) : String := "0x" ++ String.ofList (hexDigits k n)

/-- Two operands of R56's syntax. -/
def twoText (a b : String) : String := a ++ ", " ++ b

/-- What a disassembler prints (R61, with the syntax of R56): the low nibble of classes 5 and 9 is not printed.
How an operand value is written is log entry 20. -/
def disassemble (i : Instr) : String :=
  match i with
  | .cls => "CLS"
  | .ret => "RET"
  | .jp nnn => "JP " ++ hexText 3 nnn.toNat
  | .call nnn => "CALL " ++ hexText 3 nnn.toNat
  | .seImm x kk => "SE " ++ twoText (regText x) (hexText 2 kk.toNat)
  | .sneImm x kk => "SNE " ++ twoText (regText x) (hexText 2 kk.toNat)
  | .seReg x y _ => "SE " ++ twoText (regText x) (regText y)
  | .ldImm x kk => "LD " ++ twoText (regText x) (hexText 2 kk.toNat)
  | .addImm x kk => "ADD " ++ twoText (regText x) (hexText 2 kk.toNat)
  | .ldReg x y => "LD " ++ twoText (regText x) (regText y)
  | .orReg x y => "OR " ++ twoText (regText x) (regText y)
  | .andReg x y => "AND " ++ twoText (regText x) (regText y)
  | .xorReg x y => "XOR " ++ twoText (regText x) (regText y)
  | .addReg x y => "ADD " ++ twoText (regText x) (regText y)
  | .sub x y => "SUB " ++ twoText (regText x) (regText y)
  | .shr x y => "SHR " ++ twoText (regText x) (regText y)
  | .subn x y => "SUBN " ++ twoText (regText x) (regText y)
  | .shl x y => "SHL " ++ twoText (regText x) (regText y)
  | .sneReg x y _ => "SNE " ++ twoText (regText x) (regText y)
  | .ldI nnn => "LD " ++ twoText "I" (hexText 3 nnn.toNat)
  | .jpV0 nnn => "JP " ++ twoText "V0" (hexText 3 nnn.toNat)
  | .rnd x kk => "RND " ++ twoText (regText x) (hexText 2 kk.toNat)
  | .drw x y n => "DRW " ++ twoText (regText x) (twoText (regText y) (hexText 1 n.toNat))
  | .addI x => "ADD " ++ twoText "I" (regText x)
  | .ldB x => "LD " ++ twoText "B" (regText x)
  | .ldMemI x => "LD " ++ twoText "[I]" (regText x)
  | .unimplKey nnn => "UNIMPL " ++ hexText 4 (encode (.unimplKey nnn)).toNat
  | .unimplGlyph x => "UNIMPL " ++ hexText 4 (encode (.unimplGlyph x)).toNat
  | .unimpl w => "UNIMPL " ++ hexText 4 w.toNat

/-- `SE Vx, Vy` as an assembler reads it: it emits n = 0 (R61). -/
def asmSeReg (x y : Reg) : Instr := .seReg x y 0x0#4

/-- `SNE Vx, Vy` as an assembler reads it: it emits n = 0 (R61). -/
def asmSneReg (x y : Reg) : Instr := .sneReg x y 0x0#4

/-- `SHR Vx` and `SHR Vx, Vy` as an assembler reads them: y = 0 when no `Vy` is written (R61). -/
def asmShr (x : Reg) (y : Option Reg) : Instr := .shr x (y.getD 0x0#4)

/-- `SHL Vx` and `SHL Vx, Vy` as an assembler reads them: y = 0 when no `Vy` is written (R61). -/
def asmShl (x : Reg) (y : Option Reg) : Instr := .shl x (y.getD 0x0#4)

end Sys2Proof
end

