-- ==== Sys2Proof/Config.lean ====
section
/-! DEFINITION. What an implementation fixes: the sizes of spec/00_scope.md R5, its four configuration parameters with their defaults, a fifth of the model's own for a point on which the spec's files disagree, and the values the spec leaves OPEN or to the environment, as constants with no body. -/

namespace Sys2Proof

namespace Config

/-- MEM_SIZE, the memory capacity (R5). -/
abbrev memSize : Nat := 4096

/-- PROG_START, the program-start offset (R5). -/
abbrev progStart : Nat := 0x200

/-- STACK_CAP, the call stack's capacity (R5). -/
abbrev stackCap : Nat := 16

/-- GLYPH_BASE, OPEN in 0 to PROG_START - 80 = 0x1B0 (R5, decision D3): no value is chosen. Log entry 5. -/
opaque glyphBase : Fin 433

/-- GLYPH_DATA, the 80 glyph bytes, OPEN (R5, decision D3): no value is chosen. Log entry 5. -/
opaque glyphData : Fin 80 → Byte

/-- The random source of Cxkk: the byte of the n-th draw, free (45_random.md R102, decision D17). Log entry 2. -/
opaque randomByte : Nat → Byte

end Config

/-- SHL_FLAG_SOURCE: the bit 8xyE copies to VF (R5, R94, decision D6). -/
inductive ShlFlagSource where
  | msb
  | lsb
  deriving DecidableEq, Repr

/-- VF_WRITE_ORDER: the order of the flag and result writes of 8xy4 to 8xyE (R5, R83, decision D7). -/
inductive VfWriteOrder where
  | flagThenResult
  | resultThenFlag
  deriving DecidableEq, Repr

/-- ODD_PC_POLICY: what a fetch at an odd pc does (R5, R66, decision D11). -/
inductive OddPcPolicy where
  | fetch
  | fault
  deriving DecidableEq, Repr

/-- The model's own: the kind of the OUT_OF_BOUNDS that an odd pc raises under ODD_PC_POLICY = fault, where the spec's
files disagree and none rules. DESIGN CHOICE: both readings, log entry 21. -/
inductive OddFaultKind where
  /-- FETCH_ODD: 40_cycle.md R63 and R66, 60_exceptions.md R113, R114, R117 and R118, 95_test_vectors.md. -/
  | fetchOdd
  /-- FETCH: 20_memory.md R40. -/
  | fetch
  deriving DecidableEq, Repr

/-- The four configuration fields a model takes (R5), and the model's own oddFaultKind (log entry 21): fixed for a
machine, changed by no step. -/
structure Params where
  shlFlagSource : ShlFlagSource
  vfWriteOrder : VfWriteOrder
  spriteReadLowerBound : Bool
  oddPcPolicy : OddPcPolicy
  oddFaultKind : OddFaultKind
  deriving DecidableEq, Repr

/-- The defaults of R5's table; FETCH_ODD, which all rules but one say, for the fifth (log entry 21). -/
def Params.default : Params :=
  { shlFlagSource := .msb
    vfWriteOrder := .flagThenResult
    spriteReadLowerBound := true
    oddPcPolicy := .fetch
    oddFaultKind := .fetchOdd }

end Sys2Proof
end

