-- ==== Sys2Proof/Machine/State.lean ====
section
/-! DEFINITION. The state of the chip8-rs CORE as plain data: every state element of spec/10_state.md R33, the held keys of R124 (60_exceptions.md), the sticky mark of R71 (40_cycle.md), and three fields of the model's own (params, outcome, draws); the outcomes of R113; and State.reset. -/

namespace Sys2Proof.Machine

/-- The kind of an OUT_OF_BOUNDS access (60_exceptions.md R113). -/
inductive AccessKind where
  /-- Instruction fetch below PROG_START (R65); at an odd pc, where oddFaultKind is fetch (20_memory.md R40). -/
  | fetch
  /-- Instruction fetch at an odd pc under ODD_PC_POLICY = fault (R66), where oddFaultKind is
  fetchOdd (log entry 21). -/
  | fetchOdd
  /-- A sprite byte read (R37, R109). -/
  | read
  /-- A byte write (R38). -/
  | write
  deriving DecidableEq, Repr

/-- The kind's number in R113's table. -/
def AccessKind.code : AccessKind → Nat
  | .fetch => 0
  | .fetchOdd => 1
  | .read => 2
  | .write => 3

/-- A fatal outcome with its info (R113); `pc` is the value pc holds after the fault (R117). -/
inductive FatalOutcome where
  /-- OUT_OF_BOUNDS: the kind and the failing address as an exact integer. -/
  | outOfBounds (kind : AccessKind) (addr : Nat) (pc : Word)
  /-- STACK_OVERFLOW: the 2nnn word. -/
  | stackOverflow (word : Word) (pc : Word)
  /-- STACK_UNDERFLOW: the word 0x00EE. -/
  | stackUnderflow (word : Word) (pc : Word)
  deriving DecidableEq, Repr

/-- What one step() returns to its caller (R113). -/
inductive StepOutcome where
  /-- OK, normal. -/
  | ok
  /-- UNIMPLEMENTED, the non-fatal report of a word without semantics (R71). -/
  | unimplemented (word : Word)
  /-- EXHAUSTED, the normal end of a run; `pc` could not be fetched (R64). -/
  | exhausted (pc : Word)
  /-- A fatal outcome (R116). -/
  | fatal (o : FatalOutcome)
  deriving DecidableEq, Repr

/-- The outcome's code in R113's table. -/
def StepOutcome.code : StepOutcome → Nat
  | .ok => 0
  | .unimplemented _ => 1
  | .exhausted _ => 2
  | .fatal (.outOfBounds _ _ _) => 3
  | .fatal (.stackOverflow _ _) => 4
  | .fatal (.stackUnderflow _ _) => 5

/-- The engine status (10_state.md R31). -/
inductive Status where
  /-- Ready to fetch. -/
  | running
  /-- Stopped by the fatal outcome `o`; left only by reset() (R72, R116). -/
  | faulted (o : FatalOutcome)
  deriving DecidableEq, Repr

/-- The framebuffer, a 64 x 32 Boolean grid (10_state.md R27): `rows[y][x]` is the pixel at column x, row y. -/
structure Framebuffer where
  rows : Vector (Vector Bool 64) 32
  deriving DecidableEq, Repr

/-- All pixels off (10_state.md R33, 46_display.md R105). -/
def Framebuffer.clear : Framebuffer := ⟨Vector.replicate 32 (Vector.replicate 64 false)⟩

/-- Memory M as the bytes that differ from what an unlisted address reads as: (address, byte) pairs in
rising order of address (Machine/Ops.lean says what an unlisted address reads as). -/
abbrev Memory := List Host.Cell

/-- The machine's state. -/
structure State where
  /-- The configuration fields of 00_scope.md R5; no step changes them. The model's own field, log entry 3. -/
  params : Params
  /-- V0 to VF (R15); VF is index 15 (R16). -/
  v : Vector Byte 16
  /-- The address register (R18). -/
  I : Word
  /-- The program counter (R19). -/
  pc : Word
  /-- The stack slots S[0] to S[15] (R21). -/
  stack : Vector Word 16
  /-- SP, the number of return addresses held, 0 to 16 (R21). -/
  sp : Fin 17
  /-- The delay timer DT (R24). -/
  dt : Byte
  /-- The sound timer ST (R24). -/
  st : Byte
  /-- The framebuffer FB (R27). -/
  fb : Framebuffer
  /-- Memory M (R30). -/
  mem : Memory
  /-- The engine status (R31). -/
  status : Status
  /-- The held keys the host supplied last (R124); no instruction reads them. -/
  keys : Vector Bool 16
  /-- How many random bytes have been drawn (R102): the next draw is `Config.randomByte draws`.
  The model's own field, log entry 2. -/
  draws : Nat
  /-- What the last step() returned (R113). The model's own field, log entry 8. -/
  outcome : StepOutcome
  /-- The sticky mark R71 asks a model to keep: some UNIMPLEMENTED outcome has occurred. Log entry 7. -/
  unimplSeen : Bool
  deriving DecidableEq, Repr

/-- Why the machine stops with a fault. -/
inductive Fault where
  /-- Raised by step alone, in status FAULTED(o): step() returns o and changes no state (R72). No instruction's
  meaning raises it: a meaning that raises a fatal outcome TAKES it, as a next state with status FAULTED (R116).
  Safe: the engine never steps again (R117). Log entry 9. -/
  | engineFaulted (o : FatalOutcome)
  deriving DecidableEq, Repr

/-- Why an instruction has no meaning. -/
inductive Refusal where
  /-- Raised by an arm of exec whose instruction is not modelled. Every instruction is modelled, so nothing
  raises it. Safe: the machine stops where the hardware goes on. -/
  | notModelled (mnemonic : String)
  deriving DecidableEq, Repr

/-- The machine right after reset() (10_state.md R33, 70_reset_and_hazards.md R129, R130), with the default
parameters (R5). Memory lists nothing: every byte is its reset content. The stack slots (log entry 1), keys (6), draws (2),
outcome (8) and mark (7) are DESIGN CHOICES; no statement rests on them but where it says so. -/
def State.reset : State :=
  { params := Params.default
    v := Vector.replicate 16 0#8
    I := 0x0000#16
    pc := 0x0200#16
    stack := Vector.replicate 16 0x0000#16
    sp := 0
    dt := 0x00#8
    st := 0x00#8
    fb := Framebuffer.clear
    mem := []
    status := .running
    keys := Vector.replicate 16 false
    draws := 0
    outcome := .ok
    unimplSeen := false }

end Sys2Proof.Machine
end

