-- ==== Sys2Proof/Machine/Ops.lean ====
section
/-! DEFINITION. The named operations over memory, registers, stack and framebuffer (spec/00_scope.md R8's primitives, spec/10_state.md, spec/20_memory.md), taking a fatal outcome as one shared operation (spec/60_exceptions.md R115 to R117), and reset(), the only way out of it, beside it. -/

namespace Sys2Proof.Machine

/-! ## Memory as data -/

/-- What the reserved low region holds at reset: GLYPH_DATA at GLYPH_BASE to GLYPH_BASE + 79, 0 elsewhere
(10_state.md R33, 70_reset_and_hazards.md R131). -/
def glyphByte (a : Nat) : Byte :=
  if h : Config.glyphBase.val ≤ a ∧ a < Config.glyphBase.val + 80 then
    Config.glyphData ⟨a - Config.glyphBase.val, by omega⟩
  else 0x00#8

/-- What an unlisted address reads as: its reset content (R33). The glyphs lie below PROG_START (R5), so every
byte from PROG_START on is 0. -/
def unlisted (a : Nat) : Byte := if a < Config.progStart then glyphByte a else 0x00#8

/-- The byte at an address, whether or not an access may reach it. -/
def Memory.get : Memory → Nat → Byte
  | [], a => unlisted a
  | (b, w) :: rest, a => if b = a then w else Memory.get rest a

/-- Forgets what is listed for an address. -/
def Memory.drop (m : Memory) (a : Nat) : Memory := m.filter (fun c => c.1 != a)

/-- Lists a byte at its place in the rising order. -/
def Memory.insert : Memory → Nat → Byte → Memory
  | [], a, v => [(a, v)]
  | (b, w) :: rest, a, v => if a < b then (a, v) :: (b, w) :: rest else (b, w) :: Memory.insert rest a v

/-- Stores one byte; storing what an unlisted address reads as removes the entry. -/
def Memory.set (m : Memory) (a : Nat) (v : Byte) : Memory :=
  if v = unlisted a then m.drop a else (m.drop a).insert a v

/-- The canonical form: addresses below MEM_SIZE and strictly rising, no entry equal to what an unlisted
address reads as. -/
def Memory.wf : Memory → Bool
  | [] => true
  | (a, v) :: rest =>
    decide (a < Config.memSize) && (v != unlisted a) && rest.all (fun c => decide (a < c.1)) && Memory.wf rest

/-! ## Registers and plain updates -/

/-- `V[i]` (10_state.md R15). -/
def State.readV (s : State) (r : Reg) : Byte := s.v[r.toNat]

/-- `V[i] <- b` (R15). -/
def State.writeV (s : State) (r : Reg) (b : Byte) : State := { s with v := s.v.set r.toNat b }

/-- The index of VF (R16). -/
abbrev regVF : Reg := 0xF#4

/-- `I <- a` (R18). -/
def State.setI (s : State) (a : Word) : State := { s with I := a }

/-- `pc <- t` (R19). -/
def State.setPc (s : State) (t : Word) : State := { s with pc := t }

/-- Replaces the framebuffer. -/
def State.setFb (s : State) (f : Framebuffer) : State := { s with fb := f }

/-- Replaces memory. -/
def State.setMem (s : State) (m : Memory) : State := { s with mem := m }

/-- Records what the step returns (60_exceptions.md R113). -/
def State.setOutcome (s : State) (o : StepOutcome) : State := { s with outcome := o }

/-- `report Unimplemented(w)` (40_cycle.md R71): the outcome, and the sticky mark the rule asks for. -/
def State.reportUnimpl (s : State) (w : Word) : State :=
  { s with outcome := .unimplemented w, unimplSeen := true }

/-- `Draw8()` (45_random.md R102): the next byte of the free random source, and the state after the draw. -/
def State.draw8 (s : State) : Byte × State := (Config.randomByte s.draws, { s with draws := s.draws + 1 })

/-! ## Taking a fatal outcome -/

/-- `raise Fault(code, info)` (R115): records the outcome with its info and the current pc, and sets the status
to FAULTED(o) (R116). It saves nothing else, switches no mode and goes to no handler (R120). The writes the
instruction made before it stay done (R117). -/
def State.raise (s : State) (info : Word → FatalOutcome) : State :=
  { s with status := .faulted (info s.pc), outcome := .fatal (info s.pc) }

/-- `reset()` (70_reset_and_hazards.md R129): every state element takes its reset value of R33 and the status
becomes RUNNING. There is no return from a trap (R121); this host operation is the only way out of FAULTED.
The parameters are no state element, and the draws and the held keys are the environment's, so it keeps them
(log entry 12). -/
def State.hostReset (s : State) : State :=
  { State.reset with params := s.params, draws := s.draws, keys := s.keys }

/-! ## Checked accesses; `.error t` is the state `t` after a fatal outcome was taken -/

/-- `MemRead(a, 1)` (20_memory.md R37). -/
def State.memRead (s : State) (a : Nat) : Except State Byte :=
  if a < Config.progStart ∨ a ≥ Config.memSize then .error (s.raise (.outOfBounds .read a))
  else .ok (s.mem.get a)

/-- `MemWrite(a, 1, v)` (R38). -/
def State.memWrite (s : State) (a : Nat) (v : Byte) : Except State State :=
  if a ≥ Config.memSize then .error (s.raise (.outOfBounds .write a))
  else .ok (s.setMem (s.mem.set a v))

/-- Writes bytes at rising addresses from `a`, each checked; the writes before a failing one stay done
(44_address_memory.md R99, R100, R117). -/
def State.storeBytes (s : State) (a : Nat) : List Byte → Except State State
  | [] => .ok s
  | v :: vs =>
    match s.memWrite a v with
    | .error t => .error t
    | .ok t => t.storeBytes (a + 1) vs

/-- `SpriteRead(a)` (46_display.md R109). -/
def State.spriteRead (s : State) (a : Nat) : Except State Byte :=
  if s.params.spriteReadLowerBound then s.memRead a
  else if a ≥ Config.memSize then .error (s.raise (.outOfBounds .read a))
  else .ok (s.mem.get a)

/-- The `n` sprite bytes from `a` on, read in rising order; the first failing read ends it (R109, R112). -/
def State.readSprite (s : State) (a : Nat) : Nat → Except State (List Byte)
  | 0 => .ok []
  | n + 1 =>
    match s.spriteRead a with
    | .error t => .error t
    | .ok b =>
      match s.readSprite (a + 1) n with
      | .error t => .error t
      | .ok bs => .ok (b :: bs)

/-- `Push(v)` (10_state.md R22); `word` is the info of a STACK_OVERFLOW (R113). -/
def State.push (s : State) (v word : Word) : Except State State :=
  if h : s.sp.val = Config.stackCap then .error (s.raise (.stackOverflow word))
  else .ok { s with stack := s.stack.set s.sp.val v (by have := s.sp.isLt; simp only [Config.stackCap] at h; omega),
                    sp := ⟨s.sp.val + 1, by have := s.sp.isLt; simp only [Config.stackCap] at h; omega⟩ }

/-- `Pop()` (R23); `word` is the info of a STACK_UNDERFLOW (R113). A popped slot keeps its value. -/
def State.pop (s : State) (word : Word) : Except State (Word × State) :=
  if h : s.sp.val = 0 then .error (s.raise (.stackUnderflow word))
  else .ok (s.stack[s.sp.val - 1]'(by have := s.sp.isLt; omega),
            { s with sp := ⟨s.sp.val - 1, by have := s.sp.isLt; omega⟩ })

/-- Ends an instruction: after a fatal outcome was taken and after normal completion alike, the state reached
is the next state. -/
def finish : Except State State → Host.Outcome State Fault Refusal
  | .ok t => .next t
  | .error t => .next t

/-! ## Framebuffer -/

/-- `FB[x][y]` (10_state.md R27). -/
def Framebuffer.pixel (f : Framebuffer) (x : Fin 64) (y : Fin 32) : Bool := f.rows[y][x]

/-- `FB[x][y] <- on`. -/
def Framebuffer.setPixel (f : Framebuffer) (x : Fin 64) (y : Fin 32) (on : Bool) : Framebuffer :=
  ⟨f.rows.set y (f.rows[y].set x on)⟩

end Sys2Proof.Machine
end

