-- ==== Sys2Proof/Machine/Operands.lean ====
section
/-! DEFINITION. Operand assembly (spec/30_encoding.md R53): none is sign-extended, scaled or shifted; the one addressing mode, base I plus an unsigned offset (spec/44_address_memory.md R101); and the operand sequences of Fx33 and Fx55. -/

namespace Sys2Proof.Machine

/-- The address operand `zext_16(nnn)` (R53). -/
def addrOperand (nnn : Addr) : Word := nnn.zeroExtend 16

/-- `zext_16` of a byte (R7). -/
def zextByte (b : Byte) : Word := b.zeroExtend 16

/-- The effective address `I + j`, an exact integer (R101, 20_memory.md R36). -/
def State.effAddr (s : State) (j : Nat) : Nat := s.I.toNat + j

/-- The hundreds, tens and ones digits of a byte (R99). -/
def bcdDigits (b : Byte) : List Byte :=
  [BitVec.ofNat 8 (b.toNat / 100), BitVec.ofNat 8 (b.toNat / 10 % 10), BitVec.ofNat 8 (b.toNat % 10)]

/-- The register range V0 to V[x], inclusive (R53, R100). -/
def State.regRange (s : State) (x : Reg) : List Byte := s.v.toList.take (x.toNat + 1)

end Sys2Proof.Machine
end

