-- ==== Sys2Proof/Machine/Address.lean ====
section
/-! DEFINITION. Address register and memory stores (spec/44_address_memory.md). -/

namespace Sys2Proof.Machine

/-- LD I, addr, Annn (R97). -/
def execLdI (nnn : Addr) (s : State) : Host.Outcome State Fault Refusal :=
  .next (s.setI (addrOperand nnn))

/-- ADD I, Vx, Fx1E (R98): wraps modulo 2^16, no flag. -/
def execAddI (x : Reg) (s : State) : Host.Outcome State Fault Refusal :=
  .next (s.setI (s.I + zextByte (s.readV x)))

/-- LD B, Vx, Fx33 (R99). -/
def execLdB (x : Reg) (s : State) : Host.Outcome State Fault Refusal :=
  finish (s.storeBytes (s.effAddr 0) (bcdDigits (s.readV x)))

/-- LD [I], Vx, Fx55 (R100): I is unchanged. -/
def execLdMemI (x : Reg) (s : State) : Host.Outcome State Fault Refusal :=
  finish (s.storeBytes (s.effAddr 0) (s.regRange x))

end Sys2Proof.Machine
end

