-- ==== Sys2Proof/Machine/Flags.lean ====
section
/-! DEFINITION. The flag computations of spec/43_alu.md: each gives an 8-bit result r and a flag f that is 0 or 1 from the sampled operands alone, and R83's write of both. -/

namespace Sys2Proof.Machine

/-- A flag value: 1 when the condition holds, else 0 (R83). -/
def flagOf (c : Bool) : Byte := if c then 0x01#8 else 0x00#8

/-- 8xy4 (R90): the sum's low byte, and carry when the exact sum exceeds 255. -/
def addCarry (vx vy : Byte) : Byte × Byte :=
  (BitVec.ofNat 8 ((vx.toNat + vy.toNat) % 256), flagOf (decide (vx.toNat + vy.toNat > 255)))

/-- 8xy5 (R91), and 8xy7 with the operands exchanged (R93): the low byte of `a - b`, and 1 when `a > b`, strictly. -/
def subFlag (a b : Byte) : Byte × Byte := (a - b, flagOf (decide (a.toNat > b.toNat)))

/-- 8xy6 (R92): the logical right shift, and the old bit 0. -/
def shiftRight (vx : Byte) : Byte × Byte := (vx >>> 1, flagOf (vx.getLsbD 0))

/-- 8xyE (R94): the left shift's low byte, and the old bit that SHL_FLAG_SOURCE selects. -/
def shiftLeft (src : ShlFlagSource) (vx : Byte) : Byte × Byte :=
  (vx <<< 1,
   match src with
   | .msb => flagOf (vx.getLsbD 7)
   | .lsb => flagOf (vx.getLsbD 0))

/-- Writes result and flag in the order VF_WRITE_ORDER sets (R83). -/
def State.writeResultFlag (s : State) (x : Reg) (rf : Byte × Byte) : State :=
  match s.params.vfWriteOrder with
  | .flagThenResult => (s.writeV regVF rf.2).writeV x rf.1
  | .resultThenFlag => (s.writeV x rf.1).writeV regVF rf.2

end Sys2Proof.Machine
end

