-- ==== Sys2Proof/Machine/Alu.lean ====
section
/-! DEFINITION. Register loads and ALU (spec/43_alu.md). None touches memory, pc, the stack or the framebuffer, and none raises. -/

namespace Sys2Proof.Machine

/-- LD Vx, byte, 6xkk (R84). -/
def execLdImm (x : Reg) (kk : Byte) (s : State) : Host.Outcome State Fault Refusal :=
  .next (s.writeV x kk)

/-- ADD Vx, byte, 7xkk (R85): wrapping, no flag. -/
def execAddImm (x : Reg) (kk : Byte) (s : State) : Host.Outcome State Fault Refusal :=
  .next (s.writeV x (s.readV x + kk))

/-- LD Vx, Vy, 8xy0 (R86). -/
def execLdReg (x y : Reg) (s : State) : Host.Outcome State Fault Refusal :=
  .next (s.writeV x (s.readV y))

/-- OR Vx, Vy, 8xy1 (R87). -/
def execOrReg (x y : Reg) (s : State) : Host.Outcome State Fault Refusal :=
  .next (s.writeV x (s.readV x ||| s.readV y))

/-- AND Vx, Vy, 8xy2 (R88). -/
def execAndReg (x y : Reg) (s : State) : Host.Outcome State Fault Refusal :=
  .next (s.writeV x (s.readV x &&& s.readV y))

/-- XOR Vx, Vy, 8xy3 (R89). -/
def execXorReg (x y : Reg) (s : State) : Host.Outcome State Fault Refusal :=
  .next (s.writeV x (s.readV x ^^^ s.readV y))

/-- ADD Vx, Vy, 8xy4 (R90). -/
def execAddReg (x y : Reg) (s : State) : Host.Outcome State Fault Refusal :=
  .next (s.writeResultFlag x (addCarry (s.readV x) (s.readV y)))

/-- SUB Vx, Vy, 8xy5 (R91). -/
def execSub (x y : Reg) (s : State) : Host.Outcome State Fault Refusal :=
  .next (s.writeResultFlag x (subFlag (s.readV x) (s.readV y)))

/-- SHR Vx, 8xy6 (R92); y is ignored (R58). -/
def execShr (x : Reg) (s : State) : Host.Outcome State Fault Refusal :=
  .next (s.writeResultFlag x (shiftRight (s.readV x)))

/-- SUBN Vx, Vy, 8xy7 (R93). -/
def execSubn (x y : Reg) (s : State) : Host.Outcome State Fault Refusal :=
  .next (s.writeResultFlag x (subFlag (s.readV y) (s.readV x)))

/-- SHL Vx, 8xyE (R94); y is ignored (R58). -/
def execShl (x : Reg) (s : State) : Host.Outcome State Fault Refusal :=
  .next (s.writeResultFlag x (shiftLeft s.params.shlFlagSource (s.readV x)))

end Sys2Proof.Machine
end

