-- ==== Sys2Proof/Machine/Control.lean ====
section
/-! DEFINITION. Control transfer (spec/41_control_flow.md). In every meaning pc already holds the instruction's address plus 2 (spec/40_cycle.md R67). -/

namespace Sys2Proof.Machine

/-- RET, 00EE (R73). -/
def execRet (s : State) : Host.Outcome State Fault Refusal :=
  match s.pop (encode .ret) with
  | .error t => .next t
  | .ok (target, t) => .next (t.setPc target)

/-- JP addr, 1nnn (R74). -/
def execJp (nnn : Addr) (s : State) : Host.Outcome State Fault Refusal :=
  .next (s.setPc (addrOperand nnn))

/-- CALL addr, 2nnn (R75). -/
def execCall (nnn : Addr) (s : State) : Host.Outcome State Fault Refusal :=
  match s.push s.pc (encode (.call nnn)) with
  | .error t => .next t
  | .ok t => .next (t.setPc (addrOperand nnn))

/-- JP V0, addr, Bnnn (R76): register 0, never x. -/
def execJpV0 (nnn : Addr) (s : State) : Host.Outcome State Fault Refusal :=
  .next (s.setPc (zextByte (s.readV 0x0#4) + addrOperand nnn))

end Sys2Proof.Machine
end

