-- ==== Sys2Proof/Machine/Compositor.lean ====
section
/-! DEFINITION. The sprite compositor of spec/46_display.md R104 to R108, as its pseudocode loops. -/

namespace Sys2Proof.Machine

/-- A column reduced modulo FB_W (R104). -/
def wrapCol (n : Nat) : Fin 64 := Fin.ofNat 64 n

/-- A row reduced modulo FB_H (R104). -/
def wrapRow (n : Nat) : Fin 32 := Fin.ofNat 32 n

/-- One sprite bit at bit offset `b` from the left of a row at framebuffer row `cy`: the collision test of R107,
then the XOR into the pixel (R106). Bit 7 of the byte is drawn at b = 0 (R108). -/
def compositeBit (ox : Nat) (cy : Fin 32) (row : Byte) (acc : Framebuffer × Bool) (b : Nat) : Framebuffer × Bool :=
  let bit := row.getLsbD (7 - b)
  let cx := wrapCol (ox + b)
  let old := acc.1.pixel cx cy
  (acc.1.setPixel cx cy (old ^^ bit), acc.2 || (bit && old))

/-- One sprite row: b = 0 to 7 (R106). -/
def compositeRow (ox : Nat) (cy : Fin 32) (row : Byte) (acc : Framebuffer × Bool) : Framebuffer × Bool :=
  (List.range 8).foldl (compositeBit ox cy row) acc

/-- The rows of a sprite from row index `j` on (R106). -/
def compositeRows (ox oy : Nat) : Nat → List Byte → Framebuffer × Bool → Framebuffer × Bool
  | _, [], acc => acc
  | j, row :: rest, acc => compositeRows ox oy (j + 1) rest (compositeRow ox (wrapRow (oy + j)) row acc)

/-- `Composite(ox, oy, rows)` (R106): the framebuffer after, and whether any bit collided. -/
def composite (ox oy : Nat) (rows : List Byte) (f : Framebuffer) : Framebuffer × Bool :=
  compositeRows ox oy 0 rows (f, false)

end Sys2Proof.Machine
end

