-- ==== Sys2Proof/Machine/Display.lean ====
section
/-! DEFINITION. Clearing and drawing (spec/46_display.md). -/

namespace Sys2Proof.Machine

/-- CLS, 00E0 (R105). -/
def execCls (s : State) : Host.Outcome State Fault Refusal :=
  .next (s.setFb Framebuffer.clear)

/-- DRW Vx, Vy, nibble, Dxyn (R109): all reads before any pixel changes, so a failing read leaves the
framebuffer and VF as they were (R112). The origin is read before VF is written. -/
def execDrw (x y : Reg) (n : Nibble) (s : State) : Host.Outcome State Fault Refusal :=
  match s.readSprite (s.effAddr 0) n.toNat with
  | .error t => .next t
  | .ok rows =>
    let c := composite (s.readV x).toNat (s.readV y).toNat rows s.fb
    .next ((s.setFb c.1).writeV regVF (flagOf c.2))

end Sys2Proof.Machine
end

