-- ==== Sys2Proof/Machine/Random.lean ====
section
/-! DEFINITION. Random masked load (spec/45_random.md). -/

namespace Sys2Proof.Machine

/-- RND Vx, byte, Cxkk (R103): one free draw per execution, masked. -/
def execRnd (x : Reg) (kk : Byte) (s : State) : Host.Outcome State Fault Refusal :=
  .next (s.draw8.2.writeV x (s.draw8.1 &&& kk))

end Sys2Proof.Machine
end

