-- ==== Sys2Proof/Machine/Unimplemented.lean ====
section
/-! DEFINITION. The unimplemented outcome (spec/40_cycle.md R71), one meaning for each UNIMPL row of the opcode table: the word is reported, the sticky mark is set, and nothing else changes beyond the pc advance of the fetch. -/

namespace Sys2Proof.Machine

/-- UNIMPL, Exxx, the keyboard-skip class (30_encoding.md R57). -/
def execUnimplKey (nnn : Addr) (s : State) : Host.Outcome State Fault Refusal :=
  .next (s.reportUnimpl (encode (.unimplKey nnn)))

/-- UNIMPL, Fx29, character-sprite address (R57). -/
def execUnimplGlyph (x : Reg) (s : State) : Host.Outcome State Fault Refusal :=
  .next (s.reportUnimpl (encode (.unimplGlyph x)))

/-- UNIMPL, any other word (R57). -/
def execUnimpl (w : Word) (s : State) : Host.Outcome State Fault Refusal :=
  .next (s.reportUnimpl w)

end Sys2Proof.Machine
end

