-- ==== Sys2Proof/Machine/Fetch.lean ====
section
/-! DEFINITION. Fetching and the start of a step (spec/40_cycle.md R63 to R68, R72), and the placing of an instruction where the next fetch reads it. -/

namespace Sys2Proof.Machine

/-- What Fetch() gives (R63). -/
inductive FetchResult where
  /-- The word, and the state with pc advanced by 2 (R67). -/
  | word (w : Word) (t : State)
  /-- EXHAUSTED: nothing written, pc unchanged (R64). -/
  | exhausted
  /-- A fatal outcome was taken; pc is unchanged (R65, R66). -/
  | raised (t : State)
  deriving DecidableEq, Repr

/-- The kind a fetch at an odd pc raises under ODD_PC_POLICY = fault: FETCH_ODD by R63 and R66, FETCH by
20_memory.md R40. Log entry 21. -/
def oddFetchKind (p : Params) : AccessKind :=
  match p.oddFaultKind with
  | .fetchOdd => .fetchOdd
  | .fetch => .fetch

/-- `Fetch()` (R63): the checks in the order R118 gives them. -/
def fetch (s : State) : FetchResult :=
  if s.pc.toNat + 1 ≥ Config.memSize then .exhausted
  else if s.pc.toNat < Config.progStart then .raised (s.raise (.outOfBounds .fetch s.pc.toNat))
  else if s.pc.toNat % 2 = 1 ∧ s.params.oddPcPolicy = .fault then
    .raised (s.raise (.outOfBounds (oddFetchKind s.params) s.pc.toNat))
  else .word (wordOfBytes (s.mem.get s.pc.toNat) (s.mem.get (s.pc.toNat + 1))) (s.setPc (s.pc + 2#16))

/-- How a step starts. -/
inductive StepStart where
  /-- The step ends without executing an instruction. -/
  | ends (o : Host.Outcome State Fault Refusal)
  /-- The decoded instruction executes in the state after the fetch. -/
  | runs (i : Instr) (t : State)

/-- The head of `step()` (R68): FAULTED is sticky (R72), then Fetch and decode. The outcome starts as OK and
Execute replaces it when it raises or reports. -/
def beginStep (s : State) : StepStart :=
  match s.status with
  | .faulted o => .ends (.fault (.engineFaulted o))
  | .running =>
    match fetch s with
    | .exhausted => .ends (.next (s.setOutcome (.exhausted s.pc)))
    | .raised t => .ends (.next t)
    | .word w t => .runs (decode w) (t.setOutcome .ok)

/-- Whether a fetch at this pc reads a word: R64, R65 and R66 do not apply. -/
def fetchable (p : Params) (pc : Word) : Bool :=
  decide (pc.toNat + 1 < Config.memSize) && decide (Config.progStart ≤ pc.toNat)
    && !(decide (pc.toNat % 2 = 1) && decide (p.oddPcPolicy = .fault))

/-- Where the next step fetches from: pc, or PROG_START where a fetch at pc would read no word. -/
def placeAt (s : State) : Word := if fetchable s.params s.pc then s.pc else 0x0200#16

/-- Puts a word's bytes at the place the next step fetches from, big-endian (R50), in an engine that is running.
Nothing else changes. Log entry 13. -/
def placeWord (s : State) (w : Word) : State :=
  { s with
    pc := placeAt s
    status := .running
    mem := (s.mem.set (placeAt s).toNat (hiByte w)).set ((placeAt s).toNat + 1) (loByte w) }

end Sys2Proof.Machine
end

