-- ==== Sys2Proof/Machine/Step.lean ====
section
/-! DEFINITION. step() (spec/40_cycle.md R68), run() under fuel (R69, R140), and the host's placing of one instruction. Everything they do is in Fetch.lean and the meanings. -/

namespace Sys2Proof.Machine

/-- `step()` (R68): one fetch-decode-execute cycle. What it returns to its caller is the next state's `outcome`. -/
def step (s : State) : Host.Outcome State Fault Refusal :=
  match beginStep s with
  | .ends o => o
  | .runs i t => exec i t

/-- `s` with the instruction whose bits are `w` placed where `step` fetches its next instruction. -/
def State.withFetchWord (s : State) (nbits w : Nat) : State :=
  placeWord s (BitVec.ofNat 16 (w % 2 ^ nbits))

/-- What `run()` gives under fuel: the last state and the outcome it returned, or none when the fuel ran out
with every outcome OK or UNIMPLEMENTED (R69, R140). -/
def runFuel : Nat → State → Option (StepOutcome × State)
  | 0, _ => none
  | k + 1, s =>
    match step s with
    | .fault (.engineFaulted o) => some (.fatal o, s)
    | .refused _ => none
    | .next t =>
      match t.outcome with
      | .ok => runFuel k t
      | .unimplemented _ => runFuel k t
      | .exhausted p => some (.exhausted p, t)
      | .fatal o => some (.fatal o, t)

end Sys2Proof.Machine
end

