-- ==== Sys2Proof/Machine/HostOps.lean ====
section
/-! DEFINITION. The host's operations of spec/00_scope.md R10, each wholly between two steps (spec/70_reset_and_hazards.md R135). reset() stands in Ops.lean, step() and run() in Step.lean. -/

namespace Sys2Proof.Machine

/-- Copies bytes to rising addresses from `a`; a byte at or past MEM_SIZE is dropped (R132, R133). -/
def Memory.copyFrom (m : Memory) (a : Nat) : List Byte → Memory
  | [] => m
  | b :: bs => Memory.copyFrom (if a < Config.memSize then m.set a b else m) (a + 1) bs

/-- `load(bytes)` (R132): a fresh memory with the image copied in from PROG_START; nothing else changes. -/
def State.load (s : State) (bytes : List Byte) : State :=
  s.setMem (Memory.copyFrom [] Config.progStart bytes)

/-- `dec_delay()` (10_state.md R25): saturates at 0. -/
def State.decDelay (s : State) : State := if s.dt = 0#8 then s else { s with dt := s.dt - 1#8 }

/-- `dec_sound()` (R26): saturates at 0; the Boolean is sound_expired, true on the step from 1 to 0. -/
def State.decSound (s : State) : State × Bool :=
  (if s.st = 0#8 then s else { s with st := s.st - 1#8 }, s.st == 1#8)

/-- `fb_snapshot()` (R29): a copy of every pixel; nothing changes. -/
def State.fbSnapshot (s : State) : Framebuffer := s.fb

/-- `keys(held)` (60_exceptions.md R124): accepted; no rule reads what it supplies. -/
def State.setKeys (s : State) (held : Vector Bool 16) : State := { s with keys := held }

end Sys2Proof.Machine
end

