-- ==== Sys2Proof/Safety.lean ====
section
/-! DEFINITION. The terms claims use: what an instruction keeps (frames), the invariant of every reachable state, what counts as a clean run, and the spec's tables written as functions of the state before the step (spec/60_exceptions.md R114, spec/46_display.md R106 to R109). -/

namespace Sys2Proof.Machine

/-! ## Frames -/

/-- A part of the state. -/
inductive Part where
  | v
  | I
  | pc
  | stack
  | timers
  | fb
  | mem
  | status
  | keys
  | draws
  | outcome
  | mark
  | params
  deriving DecidableEq, Repr

/-- A part is the same in both states: every register, slot, pixel or byte of it. Memory is compared through
the read of one byte, at every address. -/
def Kept (p : Part) (s t : State) : Prop :=
  match p with
  | .v => ∀ r : Reg, t.readV r = s.readV r
  | .I => t.I = s.I
  | .pc => t.pc = s.pc
  | .stack => t.sp = s.sp ∧ ∀ j : Fin 16, t.stack[j] = s.stack[j]
  | .timers => t.dt = s.dt ∧ t.st = s.st
  | .fb => ∀ (x : Fin 64) (y : Fin 32), t.fb.pixel x y = s.fb.pixel x y
  | .mem => ∀ a : Nat, t.mem.get a = s.mem.get a
  | .status => t.status = s.status
  | .keys => t.keys = s.keys
  | .draws => t.draws = s.draws
  | .outcome => t.outcome = s.outcome
  | .mark => t.unimplSeen = s.unimplSeen
  | .params => t.params = s.params

/-- Every part but the named ones is the same in both states. -/
def KeepsAllBut (ps : List Part) (s t : State) : Prop := ∀ p : Part, p ∉ ps → Kept p s t

/-- Every register but the named ones is the same in both states. -/
def RegsKeptBut (rs : List Reg) (s t : State) : Prop := ∀ r : Reg, r ∉ rs → t.readV r = s.readV r

/-- Every byte of memory outside the `n` bytes from `a` on is the same in both states. -/
def BytesKeptOutside (a n : Nat) (s t : State) : Prop := ∀ b : Nat, (b < a ∨ a + n ≤ b) → t.mem.get b = s.mem.get b

/-- The result and flag of 8xy4 to 8xyE are written as 43_alu.md R83 says, and nothing else changes: with x other
than F, V[x] is the result and VF the flag; with x = F, VF_WRITE_ORDER decides which of the two VF ends as. -/
def ResultAndFlagWritten (x : Reg) (r f : Byte) (s t : State) : Prop :=
  (x ≠ regVF → t.readV x = r ∧ t.readV regVF = f) ∧
  (x = regVF → s.params.vfWriteOrder = .flagThenResult → t.readV regVF = r) ∧
  (x = regVF → s.params.vfWriteOrder = .resultThenFlag → t.readV regVF = f) ∧
  RegsKeptBut [x, regVF] s t ∧ KeepsAllBut [.v] s t

/-- A fatal outcome `o` has been taken (60_exceptions.md R115, R116). -/
def FaultTaken (o : FatalOutcome) (t : State) : Prop := t.status = .faulted o ∧ t.outcome = .fatal o

/-! ## Sprites -/

/-- A sprite byte at this address may be read (46_display.md R109's SpriteRead). -/
abbrev SpriteByteReadable (p : Params) (a : Nat) : Prop :=
  a < Config.memSize ∧ (p.spriteReadLowerBound = true → Config.progStart ≤ a)

/-- Every byte of the sprite of `n` rows at I may be read. -/
abbrev SpriteReadable (s : State) (n : Nibble) : Prop := ∀ j : Nat, j < n.toNat → SpriteByteReadable s.params (s.effAddr j)

/-- The sprite bit that Dxyn lands on the pixel at column px, row py (R106, R108): row byte j, the byte at I + j, lands
on row (V[y] + j) mod 32, and its bit 7 - b on column (V[x] + b) mod 64. False where the sprite does not reach. -/
def spriteBitAt (s : State) (x y : Reg) (n : Nibble) (px : Fin 64) (py : Fin 32) : Bool :=
  (List.range n.toNat).any fun j => (List.range 8).any fun b =>
    decide (px.val = ((s.readV x).toNat + b) % 64) && decide (py.val = ((s.readV y).toNat + j) % 32)
      && (s.mem.get (s.effAddr j)).getLsbD (7 - b)

/-! ## Outcomes -/

/-- R115's record of an OUT_OF_BOUNDS. -/
def oob (k : AccessKind) (a : Nat) (pc : Word) : StepOutcome := .fatal (.outOfBounds k a pc)

/-- What the instruction phase of a step returns, from the table of R114; `s` is the state after the fetch, so its
pc is the pc R113 records. -/
def executeOutcome (i : Instr) (s : State) : StepOutcome :=
  match i with
  | .ret => if s.sp.val = 0 then .fatal (.stackUnderflow 0x00EE#16 s.pc) else .ok
  | .call nnn => if s.sp.val = 16 then .fatal (.stackOverflow (0x2#4 ++ nnn) s.pc) else .ok
  | .drw _ _ n =>
    match (List.range n.toNat).find? (fun j =>
        decide (s.I.toNat + j ≥ 4096) || (s.params.spriteReadLowerBound && decide (s.I.toNat + j < 0x200))) with
    | some j => oob .read (s.I.toNat + j) s.pc
    | none => .ok
  | .ldB _ => if s.I.toNat + 2 ≥ 4096 then oob .write (max s.I.toNat 4096) s.pc else .ok
  | .ldMemI x => if s.I.toNat + x.toNat ≥ 4096 then oob .write (max s.I.toNat 4096) s.pc else .ok
  | .unimplKey nnn => .unimplemented (0xE#4 ++ nnn)
  | .unimplGlyph x => .unimplemented (0xF#4 ++ x ++ 0x29#8)
  | .unimpl w => .unimplemented w
  | .cls | .jp _ | .seImm _ _ | .sneImm _ _ | .seReg _ _ _ | .ldImm _ _ | .addImm _ _
  | .ldReg _ _ | .orReg _ _ | .andReg _ _ | .xorReg _ _ | .addReg _ _ | .sub _ _ | .shr _ _ | .subn _ _
  | .shl _ _ | .sneReg _ _ _ | .ldI _ | .jpV0 _ | .rnd _ _ | .addI _ => .ok

/-- What a step of a RUNNING engine returns, from the table of R114 in the priority of R118; an odd fetch's kind is R114's
FETCH_ODD, or R40's FETCH where oddFaultKind says so (log entry 21). -/
def stepOutcome (s : State) : StepOutcome :=
  if s.pc.toNat + 1 ≥ 4096 then .exhausted s.pc
  else if s.pc.toNat < 0x200 then oob .fetch s.pc.toNat s.pc
  else if s.pc.toNat % 2 = 1 ∧ s.params.oddPcPolicy = .fault then
    oob (if s.params.oddFaultKind = .fetchOdd then .fetchOdd else .fetch) s.pc.toNat s.pc
  else executeOutcome (decode (wordOfBytes (s.mem.get s.pc.toNat) (s.mem.get (s.pc.toNat + 1)))) (s.setPc (s.pc + 2#16))

/-- An instruction is one of the three UNIMPL rows (30_encoding.md R57). -/
def isUnimpl : Instr → Bool
  | .unimplKey _ | .unimplGlyph _ | .unimpl _ => true
  | .cls | .ret | .jp _ | .call _ | .seImm _ _ | .sneImm _ _ | .seReg _ _ _ | .ldImm _ _ | .addImm _ _
  | .ldReg _ _ | .orReg _ _ | .andReg _ _ | .xorReg _ _ | .addReg _ _ | .sub _ _ | .shr _ _ | .subn _ _
  | .shl _ _ | .sneReg _ _ _ | .ldI _ | .jpV0 _ | .rnd _ _ | .drw _ _ _ | .addI _ | .ldB _ | .ldMemI _ => false

/-! ## The invariant, and clean runs -/

/-- What holds of every state a run reaches: memory keeps its canonical form, pc is at most 0x10FE, and every
return address held is at most 0x1000 (10_state.md R20). -/
def StateInv (s : State) : Prop :=
  s.mem.wf = true ∧ s.pc.toNat ≤ 0x10FE ∧ ∀ j : Fin 16, j.val < s.sp.val → s.stack[j].toNat ≤ 0x1000

/-- The engine has not stopped, and no unimplemented word has executed: the premise R71 lets a claim take. -/
def Clean (s : State) : Prop := s.status = .running ∧ s.unimplSeen = false

/-- A run ended normally: run() returned EXHAUSTED with no unimplemented word executed (40_cycle.md R64, R69, R71). -/
def EndedCleanly (fuel : Nat) (s t : State) : Prop :=
  ∃ p, runFuel fuel s = some (.exhausted p, t) ∧ Clean t

end Sys2Proof.Machine
end

