-- ==== Sys2Proof/Certificates/Slice0/Obligations.lean ====
section
/-! DEFINITION. The statements for the provers: what the rules of spec/ say the machine does. `exec i s` runs on the state after the fetch, so `s.pc` is the instruction's address plus 2 (spec/40_cycle.md R67). -/

open Sys2Proof Sys2Proof.Machine

/-! ## Encoding -/

/-- Decode and encode agree: decoding the word of a well-formed instruction gives it back, every operand at every
value (spec/30_encoding.md sections 1 to 4). -/
def Obligations.DecodeEncodeRoundTrip : Prop :=
  ∀ i : Instr, i.wellFormed = true → decode (encode i) = i

/-- Every word decodes to a well-formed instruction whose word it is (spec/30_encoding.md section 2, R54, R57). -/
def Obligations.EncodeDecodeRoundTrip : Prop :=
  ∀ w : Word, (decode w).wellFormed = true ∧ encode (decode w) = w

/-- Words written out from spec/30_encoding.md's encodings and spec/95_test_vectors.md section 2.1. -/
def Obligations.WordsFromTheSpecDecode : Prop :=
  decode 0xD12F#16 = .drw 0x1 0x2 0xF ∧ decode 0x00EE#16 = .ret ∧ decode 0x5125#16 = .seReg 0x1 0x2 0x5 ∧
  decode 0xB123#16 = .jpV0 0x123 ∧ decode 0x812E#16 = .shl 0x1 0x2 ∧ decode 0xFF55#16 = .ldMemI 0xF ∧
  decode 0xC30F#16 = .rnd 0x3 0x0F ∧ decode 0x0123#16 = .unimpl 0x0123

/-- The unimplemented words are exactly those spec/30_encoding.md R57 lists. -/
def Obligations.UnimplementedSpaceIsExact : Prop :=
  ∀ w : Word, isUnimpl (decode w) = true ↔
    (fieldClass w = 0x0#4 ∧ w ≠ 0x00E0#16 ∧ w ≠ 0x00EE#16) ∨
    (fieldClass w = 0x8#4 ∧ fieldN w ∈ [0x8#4, 0x9#4, 0xA#4, 0xB#4, 0xC#4, 0xD#4, 0xF#4]) ∨
    fieldClass w = 0xE#4 ∨
    (fieldClass w = 0xF#4 ∧ fieldKK w ∉ [0x1E#8, 0x33#8, 0x55#8])

/-- Ignored bits (spec/30_encoding.md R58): w[3:0] of classes 5 and 9, and y of 8xy6 and 8xyE. Words of the Fx1E, Fx33
and Fx55 rows have no bits but their class, x and kk. -/
def Obligations.IgnoredBitsDoNotMatter : Prop :=
  (∀ (w u : Word) (s : State), (w &&& 0xF000#16 = 0x5000#16 ∨ w &&& 0xF000#16 = 0x9000#16) →
    w &&& 0xFFF0#16 = u &&& 0xFFF0#16 → exec (decode w) s = exec (decode u) s) ∧
  (∀ (w u : Word) (s : State), (w &&& 0xF00F#16 = 0x8006#16 ∨ w &&& 0xF00F#16 = 0x800E#16) →
    w &&& 0xFF0F#16 = u &&& 0xFF0F#16 → exec (decode w) s = exec (decode u) s) ∧
  (∀ (w u : Word), (w &&& 0xF0FF#16 = 0xF01E#16 ∨ w &&& 0xF0FF#16 = 0xF033#16 ∨ w &&& 0xF0FF#16 = 0xF055#16) →
    fieldX w = fieldX u → fieldClass w = fieldClass u → fieldKK w = fieldKK u → decode w = decode u)

/-- No word selects two of the 26 rows of spec/30_encoding.md R56. -/
def Obligations.OpcodeRowsDisjoint : Prop :=
  opcodeRows.Pairwise fun r q => ∀ w : Word, ¬ (r.selects w = true ∧ q.selects w = true)

/-! ## The cycle -/

/-- A step of a running engine whose fetch reads a word runs exactly the decoded instruction, in the state whose pc is
2 further and whose outcome is OK (spec/40_cycle.md R63, R67, R68). -/
def Obligations.StepRunsTheDecodedInstruction : Prop :=
  ∀ (s : State) (i : Instr), s.status = .running → s.pc.toNat + 1 < 4096 → 0x200 ≤ s.pc.toNat →
    (s.pc.toNat % 2 = 1 → s.params.oddPcPolicy = .fetch) →
    decodeBytes [s.mem.get s.pc.toNat, s.mem.get (s.pc.toNat + 1)] = .ok (i, []) →
    step s = exec i ((s.setPc (s.pc + 2#16)).setOutcome .ok)

/-- The end of memory (spec/40_cycle.md section 1; decision D12): EXHAUSTED with no change of state, and a second
step answers the very same state. -/
def Obligations.FetchPastEndIsExhausted : Prop :=
  ∀ s : State, s.status = .running → 0xFFF ≤ s.pc.toNat →
    ∃ t, step s = .next t ∧ t.outcome = .exhausted s.pc ∧ KeepsAllBut [.outcome] s t ∧ step t = .next t

/-- Fetch below the program region (spec/40_cycle.md section 1 on R65; decision D13 for the sticky status): OUT_OF_BOUNDS
kind FETCH with the address pc, pc unchanged; and only 1nnn, 2nnn, Bnnn and 00EE take pc below 0x200. -/
def Obligations.FetchBelowProgramRaises : Prop :=
  (∀ s : State, s.status = .running → s.pc.toNat < 0x200 →
    ∃ t, step s = .next t ∧ FaultTaken (.outOfBounds .fetch s.pc.toNat s.pc) t ∧
      KeepsAllBut [.status, .outcome] s t) ∧
  (∀ (i : Instr) (s t : State), exec i s = .next t → 0x200 ≤ s.pc.toNat → s.pc.toNat ≤ 0x1000 → t.pc.toNat < 0x200 →
    i = .ret ∨ (∃ nnn, i = .jp nnn) ∨ (∃ nnn, i = .call nnn) ∨ (∃ nnn, i = .jpV0 nnn))

/-- Fetch at an odd pc (spec/40_cycle.md section 1; decision D11), under each ODD_PC_POLICY: fault raises
OUT_OF_BOUNDS, of kind FETCH_ODD as section 1 says or of kind FETCH as spec/20_memory.md section 3 says, by the model's
oddFaultKind (log entry 21); fetch reads the word like any other. -/
def Obligations.OddFetchFollowsPolicy : Prop :=
  ∀ s : State, s.status = .running → s.pc.toNat + 1 < 4096 → 0x200 ≤ s.pc.toNat → s.pc.toNat % 2 = 1 →
    (s.params.oddPcPolicy = .fault →
      ∃ t k, step s = .next t ∧ FaultTaken (.outOfBounds k s.pc.toNat s.pc) t ∧
        (s.params.oddFaultKind = .fetchOdd → k = .fetchOdd) ∧ (s.params.oddFaultKind = .fetch → k = .fetch) ∧
        KeepsAllBut [.status, .outcome] s t) ∧
    (s.params.oddPcPolicy = .fetch →
      step s = exec (decode (wordOfBytes (s.mem.get s.pc.toNat) (s.mem.get (s.pc.toNat + 1))))
        ((s.setPc (s.pc + 2#16)).setOutcome .ok))

/-- FAULTED is sticky (spec/40_cycle.md section 3; decision D13): a step returns the recorded outcome and gives no new
state, under any amount of fuel; reset() makes the engine RUNNING again. -/
def Obligations.FaultedIsSticky : Prop :=
  ∀ (s : State) (o : FatalOutcome), s.status = .faulted o →
    step s = .fault (.engineFaulted o) ∧ (∀ k : Nat, runFuel (k + 1) s = some (.fatal o, s)) ∧
    s.hostReset.status = .running

/-- Unimplemented words (spec/40_cycle.md section 3; decision D15): the word is reported and the sticky mark set, and
nothing else changes. -/
def Obligations.UnimplementedOnlyReports : Prop :=
  (∀ (nnn : Addr) (s : State), ∃ t, exec (.unimplKey nnn) s = .next t ∧ t.outcome = .unimplemented (0xE#4 ++ nnn) ∧
    t.unimplSeen = true ∧ KeepsAllBut [.outcome, .mark] s t) ∧
  (∀ (x : Reg) (s : State), ∃ t, exec (.unimplGlyph x) s = .next t ∧
    t.outcome = .unimplemented (0xF#4 ++ x ++ 0x29#8) ∧ t.unimplSeen = true ∧ KeepsAllBut [.outcome, .mark] s t) ∧
  (∀ (w : Word) (s : State), ∃ t, exec (.unimpl w) s = .next t ∧ t.outcome = .unimplemented w ∧
    t.unimplSeen = true ∧ KeepsAllBut [.outcome, .mark] s t)

/-! ## Control transfer -/

/-- RET (spec/41_control_flow.md section on R73; decision D5 for the empty stack). -/
def Obligations.RetPopsOrUnderflows : Prop :=
  decode 0x00EE#16 = .ret ∧
  (∀ (s : State) (j : Fin 16), s.sp.val = j.val + 1 →
    ∃ t, exec .ret s = .next t ∧ t.pc = s.stack[j] ∧ t.sp.val = j.val ∧
      (∀ k : Fin 16, t.stack[k] = s.stack[k]) ∧ KeepsAllBut [.pc, .stack] s t) ∧
  (∀ s : State, s.sp.val = 0 →
    ∃ t, exec .ret s = .next t ∧ FaultTaken (.stackUnderflow 0x00EE#16 s.pc) t ∧ KeepsAllBut [.status, .outcome] s t)

/-- JP addr (spec/41_control_flow.md R74). -/
def Obligations.JpJumps : Prop :=
  (∀ w : Word, w &&& 0xF000#16 = 0x1000#16 → decode w = .jp (fieldNNN w)) ∧
  (∀ (nnn : Addr) (s : State), ∃ t, exec (.jp nnn) s = .next t ∧ t.pc.toNat = nnn.toNat ∧ KeepsAllBut [.pc] s t)

/-- CALL addr (spec/41_control_flow.md on R75; decisions D4 for the capacity, D13 and D22 for the overflow). -/
def Obligations.CallPushesOrOverflows : Prop :=
  (∀ w : Word, w &&& 0xF000#16 = 0x2000#16 → decode w = .call (fieldNNN w)) ∧
  (∀ (nnn : Addr) (s : State) (j : Fin 16), s.sp.val = j.val →
    ∃ t, exec (.call nnn) s = .next t ∧ t.pc.toNat = nnn.toNat ∧ t.sp.val = j.val + 1 ∧ t.stack[j] = s.pc ∧
      (∀ k : Fin 16, k ≠ j → t.stack[k] = s.stack[k]) ∧ KeepsAllBut [.pc, .stack] s t) ∧
  (∀ (nnn : Addr) (s : State), s.sp.val = 16 →
    ∃ t, exec (.call nnn) s = .next t ∧ FaultTaken (.stackOverflow (0x2#4 ++ nnn) s.pc) t ∧
      KeepsAllBut [.status, .outcome] s t)

/-- JP V0, addr (spec/41_control_flow.md R76): the exact sum, at most 0x10FE. -/
def Obligations.JpV0AddsV0 : Prop :=
  (∀ w : Word, w &&& 0xF000#16 = 0xB000#16 → decode w = .jpV0 (fieldNNN w)) ∧
  (∀ (nnn : Addr) (s : State), ∃ t, exec (.jpV0 nnn) s = .next t ∧
    t.pc.toNat = (s.readV 0x0#4).toNat + nnn.toNat ∧ t.pc.toNat ≤ 0x10FE ∧ KeepsAllBut [.pc] s t)

/-- CALL then RET restores pc and the stack depth (the round trip spec/41_control_flow.md quotes after CALL), and leaves
every slot but the one that the call wrote as it was. -/
def Obligations.CallThenRetReturns : Prop :=
  ∀ (nnn : Addr) (s : State), s.sp.val < 16 →
    ∃ t u, exec (.call nnn) s = .next t ∧ exec .ret t = .next u ∧ u.pc = s.pc ∧ u.sp = s.sp ∧
      (∀ k : Fin 16, k.val ≠ s.sp.val → u.stack[k] = s.stack[k]) ∧ KeepsAllBut [.stack] s u

/-! ## Skips -/

/-- SE Vx, byte (spec/42_skips.md R79). -/
def Obligations.SeImmSkipsWhenEqual : Prop :=
  (∀ w : Word, w &&& 0xF000#16 = 0x3000#16 → decode w = .seImm (fieldX w) (fieldKK w)) ∧
  (∀ (x : Reg) (kk : Byte) (s : State), ∃ t, exec (.seImm x kk) s = .next t ∧
    t.pc = (if s.readV x = kk then s.pc + 2#16 else s.pc) ∧ KeepsAllBut [.pc] s t)

/-- SNE Vx, byte (spec/42_skips.md R80). -/
def Obligations.SneImmSkipsWhenDifferent : Prop :=
  (∀ w : Word, w &&& 0xF000#16 = 0x4000#16 → decode w = .sneImm (fieldX w) (fieldKK w)) ∧
  (∀ (x : Reg) (kk : Byte) (s : State), ∃ t, exec (.sneImm x kk) s = .next t ∧
    t.pc = (if s.readV x = kk then s.pc else s.pc + 2#16) ∧ KeepsAllBut [.pc] s t)

/-- SE Vx, Vy (spec/42_skips.md R81), for every low nibble. -/
def Obligations.SeRegSkipsWhenEqual : Prop :=
  (∀ w : Word, w &&& 0xF000#16 = 0x5000#16 → decode w = .seReg (fieldX w) (fieldY w) (fieldN w)) ∧
  (∀ (x y : Reg) (n : Nibble) (s : State), ∃ t, exec (.seReg x y n) s = .next t ∧
    t.pc = (if s.readV x = s.readV y then s.pc + 2#16 else s.pc) ∧ KeepsAllBut [.pc] s t)

/-- SNE Vx, Vy (spec/42_skips.md R82), for every low nibble. -/
def Obligations.SneRegSkipsWhenDifferent : Prop :=
  (∀ w : Word, w &&& 0xF000#16 = 0x9000#16 → decode w = .sneReg (fieldX w) (fieldY w) (fieldN w)) ∧
  (∀ (x y : Reg) (n : Nibble) (s : State), ∃ t, exec (.sneReg x y n) s = .next t ∧
    t.pc = (if s.readV x = s.readV y then s.pc else s.pc + 2#16) ∧ KeepsAllBut [.pc] s t)

/-! ## Loads and ALU -/

/-- LD Vx, byte (spec/43_alu.md R84). -/
def Obligations.LdImmLoads : Prop :=
  (∀ w : Word, w &&& 0xF000#16 = 0x6000#16 → decode w = .ldImm (fieldX w) (fieldKK w)) ∧
  (∀ (x : Reg) (kk : Byte) (s : State), ∃ t, exec (.ldImm x kk) s = .next t ∧ t.readV x = kk ∧
    RegsKeptBut [x] s t ∧ KeepsAllBut [.v] s t)

/-- ADD Vx, byte (spec/43_alu.md R85): wrapping, no flag. -/
def Obligations.AddImmWrapsWithoutFlag : Prop :=
  (∀ w : Word, w &&& 0xF000#16 = 0x7000#16 → decode w = .addImm (fieldX w) (fieldKK w)) ∧
  (∀ (x : Reg) (kk : Byte) (s : State), ∃ t, exec (.addImm x kk) s = .next t ∧
    (t.readV x).toNat = ((s.readV x).toNat + kk.toNat) % 256 ∧ RegsKeptBut [x] s t ∧ KeepsAllBut [.v] s t)

/-- LD Vx, Vy (spec/43_alu.md R86). -/
def Obligations.LdRegCopies : Prop :=
  (∀ w : Word, w &&& 0xF00F#16 = 0x8000#16 → decode w = .ldReg (fieldX w) (fieldY w)) ∧
  (∀ (x y : Reg) (s : State), ∃ t, exec (.ldReg x y) s = .next t ∧ t.readV x = s.readV y ∧
    RegsKeptBut [x] s t ∧ KeepsAllBut [.v] s t)

/-- OR, AND and XOR (spec/43_alu.md R87, R88, R89), bit by bit. -/
def Obligations.BitwiseOpsCombineBits : Prop :=
  (∀ w : Word, w &&& 0xF00F#16 = 0x8001#16 → decode w = .orReg (fieldX w) (fieldY w)) ∧
  (∀ w : Word, w &&& 0xF00F#16 = 0x8002#16 → decode w = .andReg (fieldX w) (fieldY w)) ∧
  (∀ w : Word, w &&& 0xF00F#16 = 0x8003#16 → decode w = .xorReg (fieldX w) (fieldY w)) ∧
  (∀ (x y : Reg) (s : State), ∃ t, exec (.orReg x y) s = .next t ∧
    (∀ b : Nat, (t.readV x).getLsbD b = ((s.readV x).getLsbD b || (s.readV y).getLsbD b)) ∧
    RegsKeptBut [x] s t ∧ KeepsAllBut [.v] s t) ∧
  (∀ (x y : Reg) (s : State), ∃ t, exec (.andReg x y) s = .next t ∧
    (∀ b : Nat, (t.readV x).getLsbD b = ((s.readV x).getLsbD b && (s.readV y).getLsbD b)) ∧
    RegsKeptBut [x] s t ∧ KeepsAllBut [.v] s t) ∧
  (∀ (x y : Reg) (s : State), ∃ t, exec (.xorReg x y) s = .next t ∧
    (∀ b : Nat, (t.readV x).getLsbD b = ((s.readV x).getLsbD b ^^ (s.readV y).getLsbD b)) ∧
    RegsKeptBut [x] s t ∧ KeepsAllBut [.v] s t)

/-- ADD Vx, Vy (spec/43_alu.md section 4 on R90; decision D7 for x = F and y = F, under either VF_WRITE_ORDER). -/
def Obligations.AddRegSumsWithCarry : Prop :=
  (∀ w : Word, w &&& 0xF00F#16 = 0x8004#16 → decode w = .addReg (fieldX w) (fieldY w)) ∧
  (∀ (x y : Reg) (s : State), ∃ t r f, exec (.addReg x y) s = .next t ∧
    r.toNat = ((s.readV x).toNat + (s.readV y).toNat) % 256 ∧
    f = (if (s.readV x).toNat + (s.readV y).toNat > 255 then 1#8 else 0#8) ∧ ResultAndFlagWritten x r f s t)

/-- SUB Vx, Vy (spec/43_alu.md section 4 on R91; decision D7 for x = F and y = F): the flag is 1 when vx > vy, strictly. -/
def Obligations.SubSubtractsWithStrictFlag : Prop :=
  (∀ w : Word, w &&& 0xF00F#16 = 0x8005#16 → decode w = .sub (fieldX w) (fieldY w)) ∧
  (∀ (x y : Reg) (s : State), ∃ t r f, exec (.sub x y) s = .next t ∧
    (r.toNat : Int) = ((s.readV x).toNat - (s.readV y).toNat : Int) % 256 ∧
    f = (if (s.readV x).toNat > (s.readV y).toNat then 1#8 else 0#8) ∧ ResultAndFlagWritten x r f s t)

/-- SHR Vx (spec/43_alu.md section 4 on R92; decision D7 for x = F): V[y] is not read. -/
def Obligations.ShrHalvesWithLowBit : Prop :=
  (∀ w : Word, w &&& 0xF00F#16 = 0x8006#16 → decode w = .shr (fieldX w) (fieldY w)) ∧
  (∀ (x y : Reg) (s : State), ∃ t r f, exec (.shr x y) s = .next t ∧ r.toNat = (s.readV x).toNat / 2 ∧
    f.toNat = (s.readV x).toNat % 2 ∧ ResultAndFlagWritten x r f s t)

/-- SUBN Vx, Vy (spec/43_alu.md section 4 on R93; decision D7 for x = F and y = F): the flag is 1 when vy > vx, strictly. -/
def Obligations.SubnSubtractsReversed : Prop :=
  (∀ w : Word, w &&& 0xF00F#16 = 0x8007#16 → decode w = .subn (fieldX w) (fieldY w)) ∧
  (∀ (x y : Reg) (s : State), ∃ t r f, exec (.subn x y) s = .next t ∧
    (r.toNat : Int) = ((s.readV y).toNat - (s.readV x).toNat : Int) % 256 ∧
    f = (if (s.readV y).toNat > (s.readV x).toNat then 1#8 else 0#8) ∧ ResultAndFlagWritten x r f s t)

/-- SHL Vx (spec/43_alu.md section 4; decisions D6 and D7), under each SHL_FLAG_SOURCE. -/
def Obligations.ShlDoublesWithSelectedBit : Prop :=
  (∀ w : Word, w &&& 0xF00F#16 = 0x800E#16 → decode w = .shl (fieldX w) (fieldY w)) ∧
  (∀ (x y : Reg) (s : State), ∃ t r f, exec (.shl x y) s = .next t ∧ r.toNat = 2 * (s.readV x).toNat % 256 ∧
    (s.params.shlFlagSource = .msb → f.toNat = (s.readV x).toNat / 128) ∧
    (s.params.shlFlagSource = .lsb → f.toNat = (s.readV x).toNat % 2) ∧ ResultAndFlagWritten x r f s t)

/-- 6xkk, 7xkk, 8xy0, 8xy1, 8xy2 and 8xy3 leave VF unchanged unless x = F, where VF takes the result
(spec/43_alu.md R96). -/
def Obligations.PlainAluKeepsVF : Prop :=
  ∀ (x y : Reg) (kk : Byte) (s : State),
    ∀ p ∈ [(Instr.ldImm x kk, kk), (.addImm x kk, s.readV x + kk), (.ldReg x y, s.readV y),
           (.orReg x y, s.readV x ||| s.readV y), (.andReg x y, s.readV x &&& s.readV y),
           (.xorReg x y, s.readV x ^^^ s.readV y)],
      ∃ t, exec p.1 s = .next t ∧ (x ≠ regVF → t.readV regVF = s.readV regVF) ∧ (x = regVF → t.readV regVF = p.2)

/-- With a destination other than VF, VF_WRITE_ORDER makes no difference to any register
(spec/43_alu.md section 1; decision D7). -/
def Obligations.WriteOrderMattersOnlyAtVF : Prop :=
  ∀ (x y : Reg) (s : State), x ≠ regVF →
    ∀ i ∈ [Instr.addReg x y, .sub x y, .shr x y, .subn x y, .shl x y],
      ∃ t u, exec i { s with params := { s.params with vfWriteOrder := .flagThenResult } } = .next t ∧
        exec i { s with params := { s.params with vfWriteOrder := .resultThenFlag } } = .next u ∧
        ∀ r : Reg, t.readV r = u.readV r

/-! ## Address register and stores -/

/-- LD I, addr (spec/44_address_memory.md R97). -/
def Obligations.LdILoadsAddress : Prop :=
  (∀ w : Word, w &&& 0xF000#16 = 0xA000#16 → decode w = .ldI (fieldNNN w)) ∧
  (∀ (nnn : Addr) (s : State), ∃ t, exec (.ldI nnn) s = .next t ∧ t.I.toNat = nnn.toNat ∧ KeepsAllBut [.I] s t)

/-- ADD I, Vx (spec/44_address_memory.md; decision D8): wraps modulo 2^16, VF unchanged. -/
def Obligations.AddIWrapsAt16Bits : Prop :=
  (∀ w : Word, w &&& 0xF0FF#16 = 0xF01E#16 → decode w = .addI (fieldX w)) ∧
  (∀ (x : Reg) (s : State), ∃ t, exec (.addI x) s = .next t ∧
    t.I.toNat = (s.I.toNat + (s.readV x).toNat) % 65536 ∧ KeepsAllBut [.I] s t)

/-- LD B, Vx (spec/44_address_memory.md; decision D9 on addresses): the three digits at I, I + 1, I + 2, and every
other byte unchanged. -/
def Obligations.LdBStoresDigits : Prop :=
  (∀ w : Word, w &&& 0xF0FF#16 = 0xF033#16 → decode w = .ldB (fieldX w)) ∧
  (∀ (x : Reg) (s : State), s.effAddr 2 < 4096 →
    ∃ t, exec (.ldB x) s = .next t ∧
      (t.mem.get (s.effAddr 0)).toNat = (s.readV x).toNat / 100 ∧
      (t.mem.get (s.effAddr 1)).toNat = (s.readV x).toNat / 10 % 10 ∧
      (t.mem.get (s.effAddr 2)).toNat = (s.readV x).toNat % 10 ∧
      BytesKeptOutside (s.effAddr 0) 3 s t ∧ KeepsAllBut [.mem] s t)

/-- LD [I], Vx (spec/44_address_memory.md; decision D9 on addresses): V0 to V[x] at I to I + x, I unchanged, and every
other byte unchanged. -/
def Obligations.LdMemIStoresRegisters : Prop :=
  (∀ w : Word, w &&& 0xF0FF#16 = 0xF055#16 → decode w = .ldMemI (fieldX w)) ∧
  (∀ (x : Reg) (s : State), s.effAddr x.toNat < 4096 →
    ∃ t, exec (.ldMemI x) s = .next t ∧
      (∀ j : Reg, j.toNat ≤ x.toNat → t.mem.get (s.effAddr j.toNat) = s.readV j) ∧
      BytesKeptOutside (s.effAddr 0) (x.toNat + 1) s t ∧ KeepsAllBut [.mem] s t)

/-- A store past the end of memory (spec/44_address_memory.md; decision D14): Fx33 and Fx55 raise at the first address
at or past MEM_SIZE, with the bytes of the lower offsets written and no other byte changed. -/
def Obligations.StoresPastEndWriteLowerBytes : Prop :=
  (∀ (x : Reg) (s : State), 4096 ≤ s.effAddr 2 →
    ∃ t, exec (.ldB x) s = .next t ∧ FaultTaken (.outOfBounds .write (max (s.effAddr 0) 4096) s.pc) t ∧
      (s.effAddr 0 < 4096 → (t.mem.get (s.effAddr 0)).toNat = (s.readV x).toNat / 100) ∧
      (s.effAddr 1 < 4096 → (t.mem.get (s.effAddr 1)).toNat = (s.readV x).toNat / 10 % 10) ∧
      BytesKeptOutside (s.effAddr 0) (4096 - s.effAddr 0) s t ∧ KeepsAllBut [.mem, .status, .outcome] s t) ∧
  (∀ (x : Reg) (s : State), 4096 ≤ s.effAddr x.toNat →
    ∃ t, exec (.ldMemI x) s = .next t ∧ FaultTaken (.outOfBounds .write (max (s.effAddr 0) 4096) s.pc) t ∧
      (∀ j : Reg, s.effAddr j.toNat < 4096 → t.mem.get (s.effAddr j.toNat) = s.readV j) ∧
      BytesKeptOutside (s.effAddr 0) (4096 - s.effAddr 0) s t ∧ KeepsAllBut [.mem, .status, .outcome] s t)

/-- Self-modifying code (spec/20_memory.md section 5, derived there): a word stored by Fx55 in the program region is
what the very next fetch from its address decodes. -/
def Obligations.StoredWordIsFetched : Prop :=
  ∀ s : State, s.status = .running → 0x200 ≤ s.I.toNat → s.I.toNat + 1 < 4096 →
    (s.I.toNat % 2 = 1 → s.params.oddPcPolicy = .fetch) →
    ∃ t, exec (.ldMemI 0x1#4) s = .next t ∧
      step (t.setPc s.I) =
        exec (decode (wordOfBytes (s.readV 0x0#4) (s.readV 0x1#4))) ((t.setPc (s.I + 2#16)).setOutcome .ok)

/-- The checked accesses (spec/20_memory.md section 2 on R37 and R38; decision D13 for the sticky status): MemRead refuses addresses below 0x200 and from 4096 on, MemWrite
only those from 4096 on, and a write changes only its own byte; a sprite byte is read by MemRead, or without the lower
check when SPRITE_READ_LOWER_BOUND is false (decision D10). -/
def Obligations.CheckedAccessesFollowBounds : Prop :=
  (∀ (s : State) (a : Nat), a < 0x200 ∨ 4096 ≤ a →
    ∃ t, s.memRead a = .error t ∧ FaultTaken (.outOfBounds .read a s.pc) t ∧ KeepsAllBut [.status, .outcome] s t) ∧
  (∀ (s : State) (a : Nat), 0x200 ≤ a → a < 4096 → s.memRead a = .ok (s.mem.get a)) ∧
  (∀ (s : State) (a : Nat) (v : Byte), 4096 ≤ a →
    ∃ t, s.memWrite a v = .error t ∧ FaultTaken (.outOfBounds .write a s.pc) t ∧
      KeepsAllBut [.status, .outcome] s t) ∧
  (∀ (s : State) (a : Nat) (v : Byte), a < 4096 →
    ∃ t, s.memWrite a v = .ok t ∧ t.mem.get a = v ∧ BytesKeptOutside a 1 s t ∧ KeepsAllBut [.mem] s t) ∧
  (∀ (s : State) (a : Nat), s.params.spriteReadLowerBound = true → s.spriteRead a = s.memRead a) ∧
  (∀ (s : State) (a : Nat), s.params.spriteReadLowerBound = false →
    (a < 4096 → s.spriteRead a = .ok (s.mem.get a)) ∧
    (4096 ≤ a → ∃ t, s.spriteRead a = .error t ∧ FaultTaken (.outOfBounds .read a s.pc) t ∧
      KeepsAllBut [.status, .outcome] s t))

/-! ## Random -/

/-- RND Vx, byte (spec/45_random.md; decision D17). The drawn byte is the model's free value
`Config.randomByte s.draws` (log entry 2), so this holds for every draw; each execution makes one draw. -/
def Obligations.RndMasksOneDraw : Prop :=
  (∀ w : Word, w &&& 0xF000#16 = 0xC000#16 → decode w = .rnd (fieldX w) (fieldKK w)) ∧
  (∀ (x : Reg) (kk : Byte) (s : State), ∃ t, exec (.rnd x kk) s = .next t ∧
    t.readV x = Config.randomByte s.draws &&& kk ∧ (t.readV x) &&& ~~~kk = 0#8 ∧ t.draws = s.draws + 1 ∧
    RegsKeptBut [x] s t ∧ KeepsAllBut [.v, .draws] s t)

/-! ## Display -/

/-- CLS (spec/46_display.md R105): every pixel off, nothing else changed. -/
def Obligations.ClsTurnsEveryPixelOff : Prop :=
  decode 0x00E0#16 = .cls ∧
  ∀ s : State, ∃ t, exec .cls s = .next t ∧ (∀ (x : Fin 64) (y : Fin 32), t.fb.pixel x y = false) ∧
    KeepsAllBut [.fb] s t

/-- DRW (spec/46_display.md sections 1 to 3; decision D10, so readable sprites under either
SPRITE_READ_LOWER_BOUND): every pixel is XORed with the sprite bit that lands on it, and VF is 1 exactly when some 1 bit
landed on a pixel that was on, else 0. -/
def Obligations.DrwXorsSpriteAndReportsCollision : Prop :=
  (∀ w : Word, w &&& 0xF000#16 = 0xD000#16 → decode w = .drw (fieldX w) (fieldY w) (fieldN w)) ∧
  (∀ (x y : Reg) (n : Nibble) (s : State), SpriteReadable s n →
    ∃ t, exec (.drw x y n) s = .next t ∧
      (∀ (px : Fin 64) (py : Fin 32), t.fb.pixel px py = (s.fb.pixel px py ^^ spriteBitAt s x y n px py)) ∧
      (t.readV regVF = 1#8 ↔ ∃ px py, spriteBitAt s x y n px py = true ∧ s.fb.pixel px py = true) ∧
      (t.readV regVF = 0#8 ∨ t.readV regVF = 1#8) ∧
      RegsKeptBut [regVF] s t ∧ KeepsAllBut [.v, .fb] s t)

/-- DRW with n = 0 (spec/46_display.md section 3, derived there): no read, so no fault whatever I holds; no pixel
changes; VF = 0. -/
def Obligations.DrwOfNoRowsClearsVF : Prop :=
  ∀ (x y : Reg) (s : State), ∃ t, exec (.drw x y 0x0#4) s = .next t ∧ t.readV regVF = 0#8 ∧
    RegsKeptBut [regVF] s t ∧ KeepsAllBut [.v] s t

/-- A sprite read that fails (spec/46_display.md section 3, derived there; decision D10): DRW raises OUT_OF_BOUNDS kind
READ at the first failing address, with no pixel and no register changed. -/
def Obligations.DrwFailingReadChangesNothing : Prop :=
  ∀ (x y : Reg) (n : Nibble) (s : State) (j : Nat), j < n.toNat → ¬ SpriteByteReadable s.params (s.effAddr j) →
    (∀ k : Nat, k < j → SpriteByteReadable s.params (s.effAddr k)) →
    ∃ t, exec (.drw x y n) s = .next t ∧ FaultTaken (.outOfBounds .read (s.effAddr j) s.pc) t ∧
      KeepsAllBut [.status, .outcome] s t

/-- Drawing the same sprite at the same place twice restores every pixel (spec/46_display.md sections 2 and 3: it follows
from R106 and R107 in section 2 and R109 in section 3, whose R111 derives it; decision D10 on sprite reads);
the second draw collides exactly where a 1 bit landed on a pixel that was off before the first, so, over pixels that were
all off, exactly when the sprite has a 1 bit (log entry 14 on R111's wording). -/
def Obligations.DrawingTwiceRestoresPixels : Prop :=
  ∀ (x y : Reg) (n : Nibble) (s t : State), SpriteReadable s n → exec (.drw x y n) s = .next t →
    t.readV x = s.readV x → t.readV y = s.readV y →
    ∃ u, exec (.drw x y n) t = .next u ∧ (∀ (px : Fin 64) (py : Fin 32), u.fb.pixel px py = s.fb.pixel px py) ∧
      (u.readV regVF = 1#8 ↔ ∃ px py, spriteBitAt s x y n px py = true ∧ s.fb.pixel px py = false) ∧
      ((∀ px py, spriteBitAt s x y n px py = true → s.fb.pixel px py = false) →
        (u.readV regVF = 1#8 ↔ ∃ j, j < n.toNat ∧ s.mem.get (s.effAddr j) ≠ 0#8))

/-! ## Whole-machine rules -/

/-- No step reads or writes a timer, or writes the held keys or a parameter (spec/10_state.md section 5; spec/60_exceptions.md
section 4; log entry 3 for the parameters). -/
def Obligations.StepsKeepTimersKeysParams : Prop :=
  ∀ s t : State, step s = .next t → Kept .timers s t ∧ Kept .keys s t ∧ Kept .params s t

/-- What the timers and the held keys hold makes no difference to any step (spec/10_state.md section 5,
spec/60_exceptions.md section 4). -/
def Obligations.StepsDoNotReadTimersOrKeys : Prop :=
  ∀ (s : State) (d e : Byte) (k : Vector Bool 16),
    step { s with dt := d, st := e, keys := k } =
      match step s with
      | .next t => .next { t with dt := d, st := e, keys := k }
      | .fault r => .fault r
      | .refused r => .refused r

/-- Only 00E0 and Dxyn write the framebuffer, and only Dxyn's result depends on it (spec/10_state.md section 6). -/
def Obligations.OnlyClsAndDrwUseFramebuffer : Prop :=
  ∀ (i : Instr) (s t : State), exec i s = .next t → i ≠ .cls → (∀ x y n, i ≠ .drw x y n) →
    Kept .fb s t ∧ ∀ f : Framebuffer, exec i (s.setFb f) = .next (t.setFb f)

/-- Only Fx33 and Fx55 write memory (spec/20_memory.md section 3). -/
def Obligations.OnlyStoresWriteMemory : Prop :=
  ∀ (i : Instr) (s t : State), exec i s = .next t → (∀ x, i ≠ .ldB x) → (∀ x, i ≠ .ldMemI x) → Kept .mem s t

/-- Only 2nnn and 00EE touch SP or a stack slot (spec/10_state.md section 4). -/
def Obligations.OnlyCallAndRetTouchStack : Prop :=
  ∀ (i : Instr) (s t : State), exec i s = .next t → (∀ nnn, i ≠ .call nnn) → i ≠ .ret → Kept .stack s t

/-- Every step of a running engine returns the outcome spec/60_exceptions.md R114 tabulates, nothing else raises, and the
engine is FAULTED afterwards exactly when the outcome is fatal. The kind of an odd
fetch is FETCH_ODD, or FETCH where the model's oddFaultKind says so (log entry 21). -/
def Obligations.StepReturnsTabulatedOutcome : Prop :=
  ∀ s : State, s.status = .running →
    ∃ t, step s = .next t ∧ t.outcome = stepOutcome s ∧
      match stepOutcome s with
      | .fatal o => t.status = .faulted o
      | .ok => t.status = .running
      | .unimplemented _ => t.status = .running
      | .exhausted _ => t.status = .running

/-- The sticky mark is set by an UNIMPLEMENTED outcome and by nothing else, and no step clears it
(spec/40_cycle.md section 3, which asks a model for it; log entry 7). -/
def Obligations.MarkRecordsEveryUnimplemented : Prop :=
  ∀ s t : State, step s = .next t → (t.unimplSeen = true ↔ s.unimplSeen = true ∨ ∃ w, t.outcome = .unimplemented w)

/-- run() returns only EXHAUSTED or a fatal outcome, and more fuel changes nothing (spec/40_cycle.md section 2; decision D15;
log entry 10 for the fuel). -/
def Obligations.RunReturnsOnlyFinalOutcomes : Prop :=
  ∀ (k : Nat) (s t : State) (o : StepOutcome), runFuel k s = some (o, t) →
    ((∃ p, o = .exhausted p) ∨ ∃ f, o = .fatal f) ∧ ∀ m : Nat, runFuel (k + m) s = some (o, t)

/-- The invariant is kept by every step, from every state that meets it: memory stays canonical, pc at most 0x10FE and every
return address held at most 0x1000 (spec/10_state.md section 3, derived there; log entry 4 for the canonical form). -/
def Obligations.EveryStepKeepsInvariant : Prop :=
  ∀ s t : State, StateInv s → step s = .next t → StateInv t

/-- The invariant holds after reset. -/
def Obligations.ResetMeetsInvariant : Prop := StateInv State.reset

/-- The host's operations keep the invariant (spec/70_reset_and_hazards.md section 2; spec/10_state.md sections 5 and 9). -/
def Obligations.HostOperationsKeepInvariant : Prop :=
  ∀ (s : State) (bytes : List Byte) (held : Vector Bool 16), StateInv s →
    StateInv s.hostReset ∧ StateInv (s.load bytes) ∧ StateInv s.decDelay ∧ StateInv s.decSound.1 ∧ StateInv (s.setKeys held)

/-! ## Reset, load and timers -/

/-- The first step after reset fetches from 0x200 (spec/70_reset_and_hazards.md section 1 on R130), whatever memory holds.
It is about State.reset alone, with the spec's default parameters (log entry 3), and the state handed to exec keeps the
outcome OK that the model gives State.reset (log entry 8). StepRunsTheDecodedInstruction covers every other state,
reset() from any state among them. -/
def Obligations.FirstFetchIsAtProgStart : Prop :=
  ∀ m : Memory, step (State.reset.setMem m) =
    exec (decode (wordOfBytes (m.get 0x200) (m.get 0x201))) ((State.reset.setMem m).setPc 0x202#16)

/-- reset() from any state (spec/10_state.md section 9; decisions D2, D3, D13): every value of the table there. GLYPH_BASE
and GLYPH_DATA are the model's open constants (log entry 5). -/
def Obligations.HostResetGivesTabledValues : Prop :=
  ∀ s : State, (∀ r : Reg, s.hostReset.readV r = 0#8) ∧ s.hostReset.I = 0#16 ∧ s.hostReset.pc = 0x0200#16 ∧
    s.hostReset.sp.val = 0 ∧ s.hostReset.dt = 0#8 ∧ s.hostReset.st = 0#8 ∧
    (∀ (x : Fin 64) (y : Fin 32), s.hostReset.fb.pixel x y = false) ∧ s.hostReset.status = .running ∧
    (∀ k : Fin 80, s.hostReset.mem.get (Config.glyphBase.val + k.val) = Config.glyphData k) ∧
    (∀ a : Nat, (a < Config.glyphBase.val ∨ Config.glyphBase.val + 80 ≤ a) → s.hostReset.mem.get a = 0#8)

/-- load(bytes) (spec/70_reset_and_hazards.md section 2; decision D20): the image from 0x200 on, bytes past the end
dropped, every other byte at its reset content, and nothing but memory changed. -/
def Obligations.LoadCopiesImage : Prop :=
  ∀ (s : State) (bytes : List Byte),
    (∀ (k : Nat) (h : k < bytes.length), k < 3584 → (s.load bytes).mem.get (0x200 + k) = bytes[k]) ∧
    (∀ a : Nat, (a < 0x200 ∨ 4096 ≤ a ∨ 0x200 + bytes.length ≤ a) →
      (s.load bytes).mem.get a = State.reset.mem.get a) ∧
    s.load bytes = s.load (bytes.take 3584) ∧ KeepsAllBut [.mem] s (s.load bytes)

/-- dec_delay() and dec_sound() (spec/10_state.md section 5; decision D18): saturation at 0, and expiry reported on the
step from 1 to 0. -/
def Obligations.TimerDecrementsSaturate : Prop :=
  ∀ s : State, s.decDelay.dt.toNat = s.dt.toNat - 1 ∧ s.decDelay.st = s.st ∧ KeepsAllBut [.timers] s s.decDelay ∧
    s.decSound.1.st.toNat = s.st.toNat - 1 ∧ s.decSound.1.dt = s.dt ∧ KeepsAllBut [.timers] s s.decSound.1 ∧
    (s.decSound.2 = true ↔ s.st.toNat = 1)
end

