-- ==== Sys2Proof/Laws/Decode.lean ====
section
/-! SUPPORT. The fields of a concatenated word, and the fields a mask and match fix: the lemmas that relate the encoder and the opcode map's masks to the decoder. -/

namespace Sys2Proof

/-! ## Fields of a word put together from its parts -/

/-- Bit `i` of a word made of a 4-bit and a 12-bit part. -/
theorem bit_nnn (c : Nibble) (a : Addr) (i : Nat) :
    BitVec.getLsbD (w := 16) (c ++ a) i = if i < 12 then a.getLsbD i else c.getLsbD (i - 12) :=
  BitVec.getLsbD_append (x := c) (y := a)

/-- Bit `i` of a word made of class, x and kk. -/
theorem bit_xkk (c : Nibble) (x : Reg) (kk : Byte) (i : Nat) :
    BitVec.getLsbD (w := 16) (c ++ x ++ kk) i =
      if i < 8 then kk.getLsbD i else if i - 8 < 4 then x.getLsbD (i - 8) else c.getLsbD (i - 8 - 4) :=
  (BitVec.getLsbD_append (x := c ++ x) (y := kk)).trans (by rw [BitVec.getLsbD_append])

/-- Bit `i` of a word made of class, x, y and n. -/
theorem bit_xyn (c : Nibble) (x y : Reg) (n : Nibble) (i : Nat) :
    BitVec.getLsbD (w := 16) (c ++ x ++ y ++ n) i =
      if i < 4 then n.getLsbD i else if i - 4 < 4 then y.getLsbD (i - 4)
      else if i - 4 - 4 < 4 then x.getLsbD (i - 4 - 4) else c.getLsbD (i - 4 - 4 - 4) :=
  (BitVec.getLsbD_append (x := c ++ x ++ y) (y := n)).trans (by rw [BitVec.getLsbD_append, BitVec.getLsbD_append])

theorem fieldClass_nnn (c : Nibble) (a : Addr) : fieldClass (c ++ a) = c := by
  unfold fieldClass
  apply BitVec.eq_of_getLsbD_eq
  intro i hi
  rw [BitVec.getLsbD_extractLsb', bit_nnn]
  simp only [hi, decide_true, Bool.true_and]
  split_ifs <;> first | omega | (congr 1; omega)

theorem fieldNNN_nnn (c : Nibble) (a : Addr) : fieldNNN (c ++ a) = a := by
  unfold fieldNNN
  apply BitVec.eq_of_getLsbD_eq
  intro i hi
  rw [BitVec.getLsbD_extractLsb', bit_nnn]
  simp only [hi, decide_true, Bool.true_and]
  split_ifs <;> first | omega | (congr 1; omega)

theorem fieldClass_xkk (c : Nibble) (x : Reg) (kk : Byte) : fieldClass (c ++ x ++ kk) = c := by
  unfold fieldClass
  apply BitVec.eq_of_getLsbD_eq
  intro i hi
  rw [BitVec.getLsbD_extractLsb', bit_xkk]
  simp only [hi, decide_true, Bool.true_and]
  split_ifs <;> first | omega | (congr 1; omega)

theorem fieldX_xkk (c : Nibble) (x : Reg) (kk : Byte) : fieldX (c ++ x ++ kk) = x := by
  unfold fieldX
  apply BitVec.eq_of_getLsbD_eq
  intro i hi
  rw [BitVec.getLsbD_extractLsb', bit_xkk]
  simp only [hi, decide_true, Bool.true_and]
  split_ifs <;> first | omega | (congr 1; omega)

theorem fieldKK_xkk (c : Nibble) (x : Reg) (kk : Byte) : fieldKK (c ++ x ++ kk) = kk := by
  unfold fieldKK
  apply BitVec.eq_of_getLsbD_eq
  intro i hi
  rw [BitVec.getLsbD_extractLsb', bit_xkk]
  simp only [hi, decide_true, Bool.true_and]
  split_ifs <;> first | omega | (congr 1; omega)

theorem fieldClass_xyn (c : Nibble) (x y : Reg) (n : Nibble) : fieldClass (c ++ x ++ y ++ n) = c := by
  unfold fieldClass
  apply BitVec.eq_of_getLsbD_eq
  intro i hi
  rw [BitVec.getLsbD_extractLsb', bit_xyn]
  simp only [hi, decide_true, Bool.true_and]
  split_ifs <;> first | omega | (congr 1; omega)

theorem fieldX_xyn (c : Nibble) (x y : Reg) (n : Nibble) : fieldX (c ++ x ++ y ++ n) = x := by
  unfold fieldX
  apply BitVec.eq_of_getLsbD_eq
  intro i hi
  rw [BitVec.getLsbD_extractLsb', bit_xyn]
  simp only [hi, decide_true, Bool.true_and]
  split_ifs <;> first | omega | (congr 1; omega)

theorem fieldY_xyn (c : Nibble) (x y : Reg) (n : Nibble) : fieldY (c ++ x ++ y ++ n) = y := by
  unfold fieldY
  apply BitVec.eq_of_getLsbD_eq
  intro i hi
  rw [BitVec.getLsbD_extractLsb', bit_xyn]
  simp only [hi, decide_true, Bool.true_and]
  split_ifs <;> first | omega | (congr 1; omega)

theorem fieldN_xyn (c : Nibble) (x y : Reg) (n : Nibble) : fieldN (c ++ x ++ y ++ n) = n := by
  unfold fieldN
  apply BitVec.eq_of_getLsbD_eq
  intro i hi
  rw [BitVec.getLsbD_extractLsb', bit_xyn]
  simp only [hi, decide_true, Bool.true_and]
  split_ifs <;> first | omega | (congr 1; omega)

/-! ## A word is its fields put together -/

theorem class_nnn_eq (w : Word) : fieldClass w ++ fieldNNN w = w := by
  apply BitVec.eq_of_getLsbD_eq
  intro i hi
  rw [bit_nnn]
  unfold fieldClass fieldNNN
  rw [BitVec.getLsbD_extractLsb', BitVec.getLsbD_extractLsb']
  split_ifs with h
  · simp [h]
  · rw [show 12 + (i - 12) = i by omega]; simp; omega

theorem class_x_kk_eq (w : Word) : fieldClass w ++ fieldX w ++ fieldKK w = w := by
  apply BitVec.eq_of_getLsbD_eq
  intro i hi
  rw [bit_xkk]
  unfold fieldClass fieldX fieldKK
  rw [BitVec.getLsbD_extractLsb', BitVec.getLsbD_extractLsb', BitVec.getLsbD_extractLsb']
  split_ifs with h h'
  · simp [h]
  · rw [show 8 + (i - 8) = i by omega]; simp; omega
  · rw [show 12 + (i - 8 - 4) = i by omega]; simp; omega

theorem class_x_y_n_eq (w : Word) : fieldClass w ++ fieldX w ++ fieldY w ++ fieldN w = w := by
  apply BitVec.eq_of_getLsbD_eq
  intro i hi
  rw [bit_xyn]
  unfold fieldClass fieldX fieldY fieldN
  rw [BitVec.getLsbD_extractLsb', BitVec.getLsbD_extractLsb', BitVec.getLsbD_extractLsb', BitVec.getLsbD_extractLsb']
  split_ifs with h h' h''
  · simp [h]
  · rw [show 4 + (i - 4) = i by omega]; simp; omega
  · rw [show 8 + (i - 4 - 4) = i by omega]; simp; omega
  · rw [show 12 + (i - 4 - 4 - 4) = i by omega]; simp; omega

/-! ## What a mask and match fix -/

/-- The mask F000 and a match fix the class (30_encoding.md R56). -/
theorem class_of_mask (w : Word) (c : Nibble) (h : w &&& 0xF000#16 = c ++ 0x000#12) : fieldClass w = c := by
  have hf := congrArg fieldClass h
  rw [fieldClass_nnn] at hf
  rw [← hf]
  unfold fieldClass
  ext i hi
  have : i = 0 ∨ i = 1 ∨ i = 2 ∨ i = 3 := by omega
  rcases this with rfl | rfl | rfl | rfl <;> simp

/-- The mask F00F and a match fix the class and n (R56). -/
theorem class_n_of_mask (w : Word) (c n : Nibble) (h : w &&& 0xF00F#16 = c ++ 0x0#4 ++ 0x0#4 ++ n) :
    fieldClass w = c ∧ fieldN w = n := by
  have hc := congrArg fieldClass h
  have hn := congrArg fieldN h
  rw [fieldClass_xyn] at hc
  rw [fieldN_xyn] at hn
  rw [← hc, ← hn]
  constructor
  · unfold fieldClass
    ext i hi
    have : i = 0 ∨ i = 1 ∨ i = 2 ∨ i = 3 := by omega
    rcases this with rfl | rfl | rfl | rfl <;> simp
  · unfold fieldN
    ext i hi
    have : i = 0 ∨ i = 1 ∨ i = 2 ∨ i = 3 := by omega
    rcases this with rfl | rfl | rfl | rfl <;> simp

/-- The mask F0FF and a match fix the class and kk (R56). -/
theorem class_kk_of_mask (w : Word) (c : Nibble) (kk : Byte) (h : w &&& 0xF0FF#16 = c ++ 0x0#4 ++ kk) :
    fieldClass w = c ∧ fieldKK w = kk := by
  have hc := congrArg fieldClass h
  have hk := congrArg fieldKK h
  rw [fieldClass_xkk] at hc
  rw [fieldKK_xkk] at hk
  rw [← hc, ← hk]
  constructor
  · unfold fieldClass
    ext i hi
    have : i = 0 ∨ i = 1 ∨ i = 2 ∨ i = 3 := by omega
    rcases this with rfl | rfl | rfl | rfl <;> simp
  · unfold fieldKK
    ext i hi
    have : i = 0 ∨ i = 1 ∨ i = 2 ∨ i = 3 ∨ i = 4 ∨ i = 5 ∨ i = 6 ∨ i = 7 := by omega
    rcases this with rfl | rfl | rfl | rfl | rfl | rfl | rfl | rfl <;> simp

/-- Putting a word's bytes together gives the word back (R50). -/
theorem wordOfBytes_bytes (w : Word) : wordOfBytes (hiByte w) (loByte w) = w := by
  apply BitVec.eq_of_getLsbD_eq
  intro i hi
  unfold wordOfBytes hiByte loByte
  refine (BitVec.getLsbD_append (x := w.extractLsb' 8 8) (y := w.extractLsb' 0 8)).trans ?_
  rw [BitVec.getLsbD_extractLsb', BitVec.getLsbD_extractLsb']
  split_ifs with h
  · simp [h]
  · rw [show 8 + (i - 8) = i by omega]; simp; omega

end Sys2Proof
end

