-- ==== Sys2Proof/Laws/Framebuffer.lean ====
section
/-! SUPPORT. Pixels after each framebuffer operation, and what compositing a sprite does to every pixel and to the collision flag (spec/46_display.md R106, R107, R111). -/

namespace Sys2Proof.Machine

@[simp] theorem pixel_clear (x : Fin 64) (y : Fin 32) : Framebuffer.clear.pixel x y = false := by
  simp [Framebuffer.clear, Framebuffer.pixel]

theorem pixel_setPixel (f : Framebuffer) (x x' : Fin 64) (y y' : Fin 32) (on : Bool) :
    (f.setPixel x y on).pixel x' y' = if x' = x ∧ y' = y then on else f.pixel x' y' := by
  simp only [Framebuffer.pixel, Framebuffer.setPixel, Fin.getElem_fin, Vector.getElem_set]
  by_cases hy : y' = y
  · subst hy
    by_cases hx : x' = x
    · subst hx; simp
    · have : ¬ (x.val = x'.val) := fun h => hx (Fin.ext h.symm)
      simp [hx, this]
  · have : ¬ (y.val = y'.val) := fun h => hy (Fin.ext h.symm)
    simp [hy, this]

/-- Two framebuffers with equal pixels are equal. -/
theorem framebuffer_ext {f g : Framebuffer} (h : ∀ x y, f.pixel x y = g.pixel x y) : f = g := by
  cases f with | mk fr => cases g with | mk gr =>
  congr 1
  apply Vector.ext
  intro y hy
  apply Vector.ext
  intro x hx
  exact h ⟨x, hx⟩ ⟨y, hy⟩

/-! ## Compositing -/

/-- How far a column lies to the right of the origin's column, around the torus (R104). -/
def colOff (ox : Nat) (x : Fin 64) : Nat := (x.val + 64 - ox % 64) % 64

/-- How far a row lies below the origin's row, around the torus (R104). -/
def rowOff (oy : Nat) (y : Fin 32) : Nat := (y.val + 32 - oy % 32) % 32

theorem eq_wrapCol_iff (ox b : Nat) (x : Fin 64) (hb : b < 64) : x = wrapCol (ox + b) ↔ colOff ox x = b := by
  have hx := x.isLt
  rw [Fin.ext_iff]
  simp only [wrapCol, Fin.ofNat, colOff]
  omega

theorem eq_wrapRow_iff (oy j : Nat) (y : Fin 32) (hj : j < 32) : y = wrapRow (oy + j) ↔ rowOff oy y = j := by
  have hy := y.isLt
  rw [Fin.ext_iff]
  simp only [wrapRow, Fin.ofNat, rowOff]
  omega

/-- The first `k` bits of a sprite row: each lands on its own column (R111). -/
theorem compositeBits_spec (ox : Nat) (cy : Fin 32) (row : Byte) (acc : Framebuffer × Bool) (k : Nat) (hk : k ≤ 8) :
    (∀ x y, ((List.range k).foldl (compositeBit ox cy row) acc).1.pixel x y =
      (acc.1.pixel x y ^^ (decide (y = cy) && decide (colOff ox x < k) && row.getLsbD (7 - colOff ox x)))) ∧
    (((List.range k).foldl (compositeBit ox cy row) acc).2 = true ↔
      acc.2 = true ∨ ∃ x, colOff ox x < k ∧ row.getLsbD (7 - colOff ox x) = true ∧ acc.1.pixel x cy = true) := by
  induction k with
  | zero => simp
  | succ k ih =>
    obtain ⟨ihp, ihc⟩ := ih (by omega)
    have hat : ∀ x, x = wrapCol (ox + k) ↔ colOff ox x = k := fun x => eq_wrapCol_iff ox k x (by omega)
    have hself : colOff ox (wrapCol (ox + k)) = k := (hat _).1 rfl
    rw [List.range_succ, List.foldl_append, List.foldl_cons, List.foldl_nil]
    generalize (List.range k).foldl (compositeBit ox cy row) acc = r at ihp ihc
    have hold : r.1.pixel (wrapCol (ox + k)) cy = acc.1.pixel (wrapCol (ox + k)) cy := by
      rw [ihp]; simp [hself]
    constructor
    · intro x y
      simp only [compositeBit, pixel_setPixel, hold]
      by_cases hx : x = wrapCol (ox + k)
      · have hc := (hat x).1 hx
        by_cases hy : y = cy
        · subst hy; subst hx; simp [hself]
        · rw [if_neg (fun h => hy h.2), ihp]; simp [hy]
      · have hc : colOff ox x ≠ k := fun h => hx ((hat x).2 h)
        rw [if_neg (fun h => hx h.1), ihp]
        have : decide (colOff ox x < k + 1) = decide (colOff ox x < k) := by
          rw [decide_eq_decide]; omega
        rw [this]
    · simp only [compositeBit, hold, Bool.or_eq_true, Bool.and_eq_true, ihc]
      constructor
      · rintro ((h | ⟨x, h1, h2, h3⟩) | ⟨h1, h2⟩)
        · exact .inl h
        · exact .inr ⟨x, by omega, h2, h3⟩
        · exact .inr ⟨_, by omega, by rwa [hself], h2⟩
      · rintro (h | ⟨x, h1, h2, h3⟩)
        · exact .inl (.inl h)
        · by_cases hx : colOff ox x = k
          · have := (hat x).2 hx
            subst this
            exact .inr ⟨by rwa [hself] at h2, h3⟩
          · exact .inl (.inr ⟨x, by omega, h2, h3⟩)

/-- The sprite bit that lands on a pixel, for the rows `rows` drawn from row index `j` on (R106, R108): false where
the sprite does not reach. -/
def spriteBit (ox oy j : Nat) (rows : List Byte) (x : Fin 64) (y : Fin 32) : Bool :=
  decide (j ≤ rowOff oy y) && decide (colOff ox x < 8) &&
    ((rows[rowOff oy y - j]?).getD 0#8).getLsbD (7 - colOff ox x)

theorem spriteBit_nil (ox oy j : Nat) (x : Fin 64) (y : Fin 32) : spriteBit ox oy j [] x y = false := by
  simp [spriteBit]

theorem spriteBit_cons (ox oy j : Nat) (row : Byte) (rows : List Byte) (x : Fin 64) (y : Fin 32) :
    spriteBit ox oy j (row :: rows) x y =
      if rowOff oy y = j then decide (colOff ox x < 8) && row.getLsbD (7 - colOff ox x)
      else spriteBit ox oy (j + 1) rows x y := by
  unfold spriteBit
  by_cases h : rowOff oy y = j
  · simp [h]
  · by_cases hl : j ≤ rowOff oy y
    · have e : rowOff oy y - j = (rowOff oy y - (j + 1)) + 1 := by omega
      have hl' : j + 1 ≤ rowOff oy y := by omega
      simp [h, hl, hl', e]
    · have hl' : ¬ j + 1 ≤ rowOff oy y := by omega
      simp [h, hl, hl']

theorem compositeRows_spec (ox oy : Nat) (rows : List Byte) (j : Nat) (acc : Framebuffer × Bool)
    (hj : j + rows.length ≤ 32) :
    (∀ x y, (compositeRows ox oy j rows acc).1.pixel x y = (acc.1.pixel x y ^^ spriteBit ox oy j rows x y)) ∧
    ((compositeRows ox oy j rows acc).2 = true ↔
      acc.2 = true ∨ ∃ x y, spriteBit ox oy j rows x y = true ∧ acc.1.pixel x y = true) := by
  induction rows generalizing j acc with
  | nil => simp [compositeRows, spriteBit_nil]
  | cons row rows ih =>
    have hlen : j + (rows.length + 1) ≤ 32 := by simpa using hj
    obtain ⟨ihp, ihc⟩ := ih (j + 1) (compositeRow ox (wrapRow (oy + j)) row acc) (by omega)
    obtain ⟨hp, hc⟩ := compositeBits_spec ox (wrapRow (oy + j)) row acc 8 (le_refl 8)
    have hrow : ∀ y, y = wrapRow (oy + j) ↔ rowOff oy y = j := fun y => eq_wrapRow_iff oy j y (by omega)
    change ∀ x y, (compositeRow ox (wrapRow (oy + j)) row acc).1.pixel x y = _ at hp
    change (compositeRow ox (wrapRow (oy + j)) row acc).2 = true ↔ _ at hc
    have hlow : ∀ x y, rowOff oy y ≤ j → spriteBit ox oy (j + 1) rows x y = false := by
      intro x y h
      have : ¬ j + 1 ≤ rowOff oy y := by omega
      simp [spriteBit, this]
    rw [compositeRows]
    constructor
    · intro x y
      rw [ihp, hp, spriteBit_cons]
      by_cases h : rowOff oy y = j
      · simp [(hrow y).2 h, (hrow (wrapRow (oy + j))).1 rfl,
          hlow x (wrapRow (oy + j)) (le_of_eq ((hrow _).1 rfl))]
      · have hn : ¬ y = wrapRow (oy + j) := fun e => h ((hrow y).1 e)
        simp [h, hn]
    · rw [ihc, hc]
      constructor
      · rintro ((h | ⟨x, h1, h2, h3⟩) | ⟨x, y, h1, h2⟩)
        · exact .inl h
        · refine .inr ⟨x, wrapRow (oy + j), ?_, h3⟩
          rw [spriteBit_cons, if_pos ((hrow _).1 rfl)]
          simp [h1, h2]
        · have hgt : ¬ rowOff oy y ≤ j := fun h => by rw [hlow x y h] at h1; exact Bool.noConfusion h1
          have hn : ¬ y = wrapRow (oy + j) := fun e => hgt (le_of_eq ((hrow y).1 e))
          refine .inr ⟨x, y, ?_, ?_⟩
          · rw [spriteBit_cons, if_neg (by omega)]; exact h1
          · rw [hp] at h2; simpa [hn] using h2
      · rintro (h | ⟨x, y, h1, h2⟩)
        · exact .inl (.inl h)
        · rw [spriteBit_cons] at h1
          split at h1
          · rename_i hr
            rw [Bool.and_eq_true, decide_eq_true_iff] at h1
            rw [(hrow y).2 hr] at h2
            exact .inl (.inr ⟨x, h1.1, h1.2, h2⟩)
          · rename_i hr
            have hn : ¬ y = wrapRow (oy + j) := fun e => hr ((hrow y).1 e)
            exact .inr ⟨x, y, h1, by rw [hp]; simpa [hn] using h2⟩

/-- Composite (R106): every pixel is XORed with the sprite bit that lands on it, and the collision flag says whether
some 1 bit landed on a pixel that was on (R107). -/
theorem composite_spec (ox oy : Nat) (rows : List Byte) (f : Framebuffer) (h : rows.length ≤ 32) :
    (∀ x y, (composite ox oy rows f).1.pixel x y = (f.pixel x y ^^ spriteBit ox oy 0 rows x y)) ∧
    ((composite ox oy rows f).2 = true ↔ ∃ x y, spriteBit ox oy 0 rows x y = true ∧ f.pixel x y = true) := by
  have := compositeRows_spec ox oy rows 0 (f, false) (by omega)
  simpa [composite] using this

end Sys2Proof.Machine
end

