-- ==== Sys2Proof/Laws/State.lean ====
section
/-! SUPPORT. One lemma per field per named update of State, each true by rfl, so that no proof unfolds a record update. -/

namespace Sys2Proof.Machine

variable (s : State)

@[simp] theorem writeV_params (r : Reg) (b : Byte) : (s.writeV r b).params = s.params := rfl
@[simp] theorem writeV_v (r : Reg) (b : Byte) : (s.writeV r b).v = s.v.set r.toNat b := rfl
@[simp] theorem writeV_I (r : Reg) (b : Byte) : (s.writeV r b).I = s.I := rfl
@[simp] theorem writeV_pc (r : Reg) (b : Byte) : (s.writeV r b).pc = s.pc := rfl
@[simp] theorem writeV_stack (r : Reg) (b : Byte) : (s.writeV r b).stack = s.stack := rfl
@[simp] theorem writeV_sp (r : Reg) (b : Byte) : (s.writeV r b).sp = s.sp := rfl
@[simp] theorem writeV_dt (r : Reg) (b : Byte) : (s.writeV r b).dt = s.dt := rfl
@[simp] theorem writeV_st (r : Reg) (b : Byte) : (s.writeV r b).st = s.st := rfl
@[simp] theorem writeV_fb (r : Reg) (b : Byte) : (s.writeV r b).fb = s.fb := rfl
@[simp] theorem writeV_mem (r : Reg) (b : Byte) : (s.writeV r b).mem = s.mem := rfl
@[simp] theorem writeV_status (r : Reg) (b : Byte) : (s.writeV r b).status = s.status := rfl
@[simp] theorem writeV_keys (r : Reg) (b : Byte) : (s.writeV r b).keys = s.keys := rfl
@[simp] theorem writeV_draws (r : Reg) (b : Byte) : (s.writeV r b).draws = s.draws := rfl
@[simp] theorem writeV_outcome (r : Reg) (b : Byte) : (s.writeV r b).outcome = s.outcome := rfl
@[simp] theorem writeV_unimplSeen (r : Reg) (b : Byte) : (s.writeV r b).unimplSeen = s.unimplSeen := rfl

@[simp] theorem setI_params (a : Word) : (s.setI a).params = s.params := rfl
@[simp] theorem setI_v (a : Word) : (s.setI a).v = s.v := rfl
@[simp] theorem setI_I (a : Word) : (s.setI a).I = a := rfl
@[simp] theorem setI_pc (a : Word) : (s.setI a).pc = s.pc := rfl
@[simp] theorem setI_stack (a : Word) : (s.setI a).stack = s.stack := rfl
@[simp] theorem setI_sp (a : Word) : (s.setI a).sp = s.sp := rfl
@[simp] theorem setI_dt (a : Word) : (s.setI a).dt = s.dt := rfl
@[simp] theorem setI_st (a : Word) : (s.setI a).st = s.st := rfl
@[simp] theorem setI_fb (a : Word) : (s.setI a).fb = s.fb := rfl
@[simp] theorem setI_mem (a : Word) : (s.setI a).mem = s.mem := rfl
@[simp] theorem setI_status (a : Word) : (s.setI a).status = s.status := rfl
@[simp] theorem setI_keys (a : Word) : (s.setI a).keys = s.keys := rfl
@[simp] theorem setI_draws (a : Word) : (s.setI a).draws = s.draws := rfl
@[simp] theorem setI_outcome (a : Word) : (s.setI a).outcome = s.outcome := rfl
@[simp] theorem setI_unimplSeen (a : Word) : (s.setI a).unimplSeen = s.unimplSeen := rfl

@[simp] theorem setPc_params (a : Word) : (s.setPc a).params = s.params := rfl
@[simp] theorem setPc_v (a : Word) : (s.setPc a).v = s.v := rfl
@[simp] theorem setPc_I (a : Word) : (s.setPc a).I = s.I := rfl
@[simp] theorem setPc_pc (a : Word) : (s.setPc a).pc = a := rfl
@[simp] theorem setPc_stack (a : Word) : (s.setPc a).stack = s.stack := rfl
@[simp] theorem setPc_sp (a : Word) : (s.setPc a).sp = s.sp := rfl
@[simp] theorem setPc_dt (a : Word) : (s.setPc a).dt = s.dt := rfl
@[simp] theorem setPc_st (a : Word) : (s.setPc a).st = s.st := rfl
@[simp] theorem setPc_fb (a : Word) : (s.setPc a).fb = s.fb := rfl
@[simp] theorem setPc_mem (a : Word) : (s.setPc a).mem = s.mem := rfl
@[simp] theorem setPc_status (a : Word) : (s.setPc a).status = s.status := rfl
@[simp] theorem setPc_keys (a : Word) : (s.setPc a).keys = s.keys := rfl
@[simp] theorem setPc_draws (a : Word) : (s.setPc a).draws = s.draws := rfl
@[simp] theorem setPc_outcome (a : Word) : (s.setPc a).outcome = s.outcome := rfl
@[simp] theorem setPc_unimplSeen (a : Word) : (s.setPc a).unimplSeen = s.unimplSeen := rfl

@[simp] theorem setFb_params (f : Framebuffer) : (s.setFb f).params = s.params := rfl
@[simp] theorem setFb_v (f : Framebuffer) : (s.setFb f).v = s.v := rfl
@[simp] theorem setFb_I (f : Framebuffer) : (s.setFb f).I = s.I := rfl
@[simp] theorem setFb_pc (f : Framebuffer) : (s.setFb f).pc = s.pc := rfl
@[simp] theorem setFb_stack (f : Framebuffer) : (s.setFb f).stack = s.stack := rfl
@[simp] theorem setFb_sp (f : Framebuffer) : (s.setFb f).sp = s.sp := rfl
@[simp] theorem setFb_dt (f : Framebuffer) : (s.setFb f).dt = s.dt := rfl
@[simp] theorem setFb_st (f : Framebuffer) : (s.setFb f).st = s.st := rfl
@[simp] theorem setFb_fb (f : Framebuffer) : (s.setFb f).fb = f := rfl
@[simp] theorem setFb_mem (f : Framebuffer) : (s.setFb f).mem = s.mem := rfl
@[simp] theorem setFb_status (f : Framebuffer) : (s.setFb f).status = s.status := rfl
@[simp] theorem setFb_keys (f : Framebuffer) : (s.setFb f).keys = s.keys := rfl
@[simp] theorem setFb_draws (f : Framebuffer) : (s.setFb f).draws = s.draws := rfl
@[simp] theorem setFb_outcome (f : Framebuffer) : (s.setFb f).outcome = s.outcome := rfl
@[simp] theorem setFb_unimplSeen (f : Framebuffer) : (s.setFb f).unimplSeen = s.unimplSeen := rfl

@[simp] theorem setMem_params (m : Memory) : (s.setMem m).params = s.params := rfl
@[simp] theorem setMem_v (m : Memory) : (s.setMem m).v = s.v := rfl
@[simp] theorem setMem_I (m : Memory) : (s.setMem m).I = s.I := rfl
@[simp] theorem setMem_pc (m : Memory) : (s.setMem m).pc = s.pc := rfl
@[simp] theorem setMem_stack (m : Memory) : (s.setMem m).stack = s.stack := rfl
@[simp] theorem setMem_sp (m : Memory) : (s.setMem m).sp = s.sp := rfl
@[simp] theorem setMem_dt (m : Memory) : (s.setMem m).dt = s.dt := rfl
@[simp] theorem setMem_st (m : Memory) : (s.setMem m).st = s.st := rfl
@[simp] theorem setMem_fb (m : Memory) : (s.setMem m).fb = s.fb := rfl
@[simp] theorem setMem_mem (m : Memory) : (s.setMem m).mem = m := rfl
@[simp] theorem setMem_status (m : Memory) : (s.setMem m).status = s.status := rfl
@[simp] theorem setMem_keys (m : Memory) : (s.setMem m).keys = s.keys := rfl
@[simp] theorem setMem_draws (m : Memory) : (s.setMem m).draws = s.draws := rfl
@[simp] theorem setMem_outcome (m : Memory) : (s.setMem m).outcome = s.outcome := rfl
@[simp] theorem setMem_unimplSeen (m : Memory) : (s.setMem m).unimplSeen = s.unimplSeen := rfl

@[simp] theorem setOutcome_params (o : StepOutcome) : (s.setOutcome o).params = s.params := rfl
@[simp] theorem setOutcome_v (o : StepOutcome) : (s.setOutcome o).v = s.v := rfl
@[simp] theorem setOutcome_I (o : StepOutcome) : (s.setOutcome o).I = s.I := rfl
@[simp] theorem setOutcome_pc (o : StepOutcome) : (s.setOutcome o).pc = s.pc := rfl
@[simp] theorem setOutcome_stack (o : StepOutcome) : (s.setOutcome o).stack = s.stack := rfl
@[simp] theorem setOutcome_sp (o : StepOutcome) : (s.setOutcome o).sp = s.sp := rfl
@[simp] theorem setOutcome_dt (o : StepOutcome) : (s.setOutcome o).dt = s.dt := rfl
@[simp] theorem setOutcome_st (o : StepOutcome) : (s.setOutcome o).st = s.st := rfl
@[simp] theorem setOutcome_fb (o : StepOutcome) : (s.setOutcome o).fb = s.fb := rfl
@[simp] theorem setOutcome_mem (o : StepOutcome) : (s.setOutcome o).mem = s.mem := rfl
@[simp] theorem setOutcome_status (o : StepOutcome) : (s.setOutcome o).status = s.status := rfl
@[simp] theorem setOutcome_keys (o : StepOutcome) : (s.setOutcome o).keys = s.keys := rfl
@[simp] theorem setOutcome_draws (o : StepOutcome) : (s.setOutcome o).draws = s.draws := rfl
@[simp] theorem setOutcome_outcome (o : StepOutcome) : (s.setOutcome o).outcome = o := rfl
@[simp] theorem setOutcome_unimplSeen (o : StepOutcome) : (s.setOutcome o).unimplSeen = s.unimplSeen := rfl

@[simp] theorem reportUnimpl_params (w : Word) : (s.reportUnimpl w).params = s.params := rfl
@[simp] theorem reportUnimpl_v (w : Word) : (s.reportUnimpl w).v = s.v := rfl
@[simp] theorem reportUnimpl_I (w : Word) : (s.reportUnimpl w).I = s.I := rfl
@[simp] theorem reportUnimpl_pc (w : Word) : (s.reportUnimpl w).pc = s.pc := rfl
@[simp] theorem reportUnimpl_stack (w : Word) : (s.reportUnimpl w).stack = s.stack := rfl
@[simp] theorem reportUnimpl_sp (w : Word) : (s.reportUnimpl w).sp = s.sp := rfl
@[simp] theorem reportUnimpl_dt (w : Word) : (s.reportUnimpl w).dt = s.dt := rfl
@[simp] theorem reportUnimpl_st (w : Word) : (s.reportUnimpl w).st = s.st := rfl
@[simp] theorem reportUnimpl_fb (w : Word) : (s.reportUnimpl w).fb = s.fb := rfl
@[simp] theorem reportUnimpl_mem (w : Word) : (s.reportUnimpl w).mem = s.mem := rfl
@[simp] theorem reportUnimpl_status (w : Word) : (s.reportUnimpl w).status = s.status := rfl
@[simp] theorem reportUnimpl_keys (w : Word) : (s.reportUnimpl w).keys = s.keys := rfl
@[simp] theorem reportUnimpl_draws (w : Word) : (s.reportUnimpl w).draws = s.draws := rfl
@[simp] theorem reportUnimpl_outcome (w : Word) : (s.reportUnimpl w).outcome = .unimplemented w := rfl
@[simp] theorem reportUnimpl_unimplSeen (w : Word) : (s.reportUnimpl w).unimplSeen = true := rfl

@[simp] theorem raise_params (f : Word → FatalOutcome) : (s.raise f).params = s.params := rfl
@[simp] theorem raise_v (f : Word → FatalOutcome) : (s.raise f).v = s.v := rfl
@[simp] theorem raise_I (f : Word → FatalOutcome) : (s.raise f).I = s.I := rfl
@[simp] theorem raise_pc (f : Word → FatalOutcome) : (s.raise f).pc = s.pc := rfl
@[simp] theorem raise_stack (f : Word → FatalOutcome) : (s.raise f).stack = s.stack := rfl
@[simp] theorem raise_sp (f : Word → FatalOutcome) : (s.raise f).sp = s.sp := rfl
@[simp] theorem raise_dt (f : Word → FatalOutcome) : (s.raise f).dt = s.dt := rfl
@[simp] theorem raise_st (f : Word → FatalOutcome) : (s.raise f).st = s.st := rfl
@[simp] theorem raise_fb (f : Word → FatalOutcome) : (s.raise f).fb = s.fb := rfl
@[simp] theorem raise_mem (f : Word → FatalOutcome) : (s.raise f).mem = s.mem := rfl
@[simp] theorem raise_status (f : Word → FatalOutcome) : (s.raise f).status = .faulted (f s.pc) := rfl
@[simp] theorem raise_keys (f : Word → FatalOutcome) : (s.raise f).keys = s.keys := rfl
@[simp] theorem raise_draws (f : Word → FatalOutcome) : (s.raise f).draws = s.draws := rfl
@[simp] theorem raise_outcome (f : Word → FatalOutcome) : (s.raise f).outcome = .fatal (f s.pc) := rfl
@[simp] theorem raise_unimplSeen (f : Word → FatalOutcome) : (s.raise f).unimplSeen = s.unimplSeen := rfl

@[simp] theorem draw8_params : (s.draw8.2).params = s.params := rfl
@[simp] theorem draw8_v : (s.draw8.2).v = s.v := rfl
@[simp] theorem draw8_I : (s.draw8.2).I = s.I := rfl
@[simp] theorem draw8_pc : (s.draw8.2).pc = s.pc := rfl
@[simp] theorem draw8_stack : (s.draw8.2).stack = s.stack := rfl
@[simp] theorem draw8_sp : (s.draw8.2).sp = s.sp := rfl
@[simp] theorem draw8_dt : (s.draw8.2).dt = s.dt := rfl
@[simp] theorem draw8_st : (s.draw8.2).st = s.st := rfl
@[simp] theorem draw8_fb : (s.draw8.2).fb = s.fb := rfl
@[simp] theorem draw8_mem : (s.draw8.2).mem = s.mem := rfl
@[simp] theorem draw8_status : (s.draw8.2).status = s.status := rfl
@[simp] theorem draw8_keys : (s.draw8.2).keys = s.keys := rfl
@[simp] theorem draw8_draws : (s.draw8.2).draws = s.draws + 1 := rfl
@[simp] theorem draw8_outcome : (s.draw8.2).outcome = s.outcome := rfl
@[simp] theorem draw8_unimplSeen : (s.draw8.2).unimplSeen = s.unimplSeen := rfl

end Sys2Proof.Machine
end

