-- ==== Sys2Proof/Laws/Registers.lean ====
section
/-! SUPPORT. What reading a register gives after each update, and what R83's write of result and flag does. -/

namespace Sys2Proof.Machine

@[simp] theorem readV_writeV_self (s : State) (r : Reg) (b : Byte) : (s.writeV r b).readV r = b := by
  simp [State.readV]

theorem readV_writeV (s : State) (r q : Reg) (b : Byte) :
    (s.writeV r b).readV q = if r = q then b else s.readV q := by
  simp [State.readV, Vector.getElem_set, BitVec.toNat_inj]

@[simp] theorem readV_writeV_of_ne (s : State) {r q : Reg} (b : Byte) (h : r ≠ q) :
    (s.writeV r b).readV q = s.readV q := by
  rw [readV_writeV, if_neg h]

/-- A register read depends on the register file alone. -/
theorem readV_congr {s t : State} (h : t.v = s.v) (r : Reg) : t.readV r = s.readV r := by
  simp [State.readV, h]

@[simp] theorem readV_setI (s : State) (a : Word) (r : Reg) : (s.setI a).readV r = s.readV r := rfl
@[simp] theorem readV_setPc (s : State) (a : Word) (r : Reg) : (s.setPc a).readV r = s.readV r := rfl
@[simp] theorem readV_setFb (s : State) (f : Framebuffer) (r : Reg) : (s.setFb f).readV r = s.readV r := rfl
@[simp] theorem readV_setMem (s : State) (m : Memory) (r : Reg) : (s.setMem m).readV r = s.readV r := rfl
@[simp] theorem readV_setOutcome (s : State) (o : StepOutcome) (r : Reg) : (s.setOutcome o).readV r = s.readV r := rfl
@[simp] theorem readV_reportUnimpl (s : State) (w : Word) (r : Reg) : (s.reportUnimpl w).readV r = s.readV r := rfl
@[simp] theorem readV_raise (s : State) (f : Word → FatalOutcome) (r : Reg) : (s.raise f).readV r = s.readV r := rfl
@[simp] theorem readV_draw8 (s : State) (r : Reg) : s.draw8.2.readV r = s.readV r := rfl

/-- R83's write changes nothing but the register file. -/
theorem writeResultFlag_eq (s : State) (x : Reg) (rf : Byte × Byte) :
    s.writeResultFlag x rf = { s with v := (s.writeResultFlag x rf).v } := by
  unfold State.writeResultFlag; split <;> rfl

/-- With a destination other than VF, either order leaves the result there (R83). -/
theorem writeResultFlag_dest (s : State) {x : Reg} (rf : Byte × Byte) (h : x ≠ regVF) :
    (s.writeResultFlag x rf).readV x = rf.1 := by
  unfold State.writeResultFlag; split <;> simp [h.symm]

/-- With a destination other than VF, either order leaves the flag in VF (R83). -/
theorem writeResultFlag_flag (s : State) {x : Reg} (rf : Byte × Byte) (h : x ≠ regVF) :
    (s.writeResultFlag x rf).readV regVF = rf.2 := by
  unfold State.writeResultFlag; split <;> simp [h]

/-- With destination VF the order decides (R83). -/
theorem writeResultFlag_vf (s : State) (rf : Byte × Byte) :
    (s.writeResultFlag regVF rf).readV regVF =
      match s.params.vfWriteOrder with
      | .flagThenResult => rf.1
      | .resultThenFlag => rf.2 := by
  unfold State.writeResultFlag; split <;> simp [*]

/-- Every other register is kept (R83). -/
theorem writeResultFlag_other (s : State) {x r : Reg} (rf : Byte × Byte) (hx : r ≠ x) (hf : r ≠ regVF) :
    (s.writeResultFlag x rf).readV r = s.readV r := by
  unfold State.writeResultFlag; split <;> simp [hx.symm, hf.symm]

end Sys2Proof.Machine
end

