-- ==== Sys2Proof/Laws/Memory.lean ====
section
/-! SUPPORT. Memory as data: a read after a write, and every operation keeps the canonical form; then what the checked accesses can do. -/

namespace Sys2Proof.Machine

@[simp] theorem memSize_eq : Config.memSize = 4096 := rfl
@[simp] theorem progStart_eq : Config.progStart = 0x200 := rfl

/-! ## Reads after writes -/

theorem get_drop_self (m : Memory) (a : Nat) : (m.drop a).get a = unlisted a := by
  induction m with
  | nil => rfl
  | cons c rest ih =>
    obtain ⟨b, w⟩ := c
    by_cases h : b = a
    · simpa [Memory.drop, h] using ih
    · simpa [Memory.drop, Memory.get, h] using ih

theorem get_drop_of_ne (m : Memory) {a b : Nat} (h : b ≠ a) : (m.drop a).get b = m.get b := by
  induction m with
  | nil => rfl
  | cons c rest ih =>
    obtain ⟨d, w⟩ := c
    by_cases hd : d = a
    · subst hd
      simpa [Memory.drop, Memory.get, h.symm] using ih
    · by_cases hb : d = b
      · simp [Memory.drop, Memory.get, hb, h]
      · simpa [Memory.drop, Memory.get, hd, hb] using ih

theorem get_insert_of_ne (m : Memory) {a b : Nat} (v : Byte) (h : b ≠ a) : (m.insert a v).get b = m.get b := by
  induction m with
  | nil => simp [Memory.insert, Memory.get, h.symm]
  | cons c rest ih =>
    obtain ⟨d, w⟩ := c
    by_cases hd : a < d
    · simp [Memory.insert, Memory.get, hd, h.symm]
    · simp [Memory.insert, Memory.get, hd, ih]

theorem get_insert_self (m : Memory) (a : Nat) (v : Byte) : ((m.drop a).insert a v).get a = v := by
  induction m with
  | nil => simp [Memory.drop, Memory.insert, Memory.get]
  | cons c rest ih =>
    obtain ⟨d, w⟩ := c
    by_cases hd : d = a
    · simpa [Memory.drop, hd] using ih
    · by_cases hl : a < d
      · simp [Memory.drop, Memory.insert, Memory.get, hd, hl]
      · simpa [Memory.drop, Memory.insert, Memory.get, hd, hl] using ih

/-- A write is read back, in any memory (R44). -/
@[simp] theorem get_set_self (m : Memory) (a : Nat) (v : Byte) : (m.set a v).get a = v := by
  unfold Memory.set
  split
  · rename_i h; rw [get_drop_self, h]
  · exact get_insert_self m a v

/-- A write changes only its own byte, in any memory (R42). -/
theorem get_set_of_ne (m : Memory) {a b : Nat} (v : Byte) (h : b ≠ a) : (m.set a v).get b = m.get b := by
  unfold Memory.set
  split
  · exact get_drop_of_ne m h
  · rw [get_insert_of_ne _ v h, get_drop_of_ne m h]

theorem get_set (m : Memory) (a b : Nat) (v : Byte) : (m.set a v).get b = if b = a then v else m.get b := by
  split
  · rename_i h; rw [h, get_set_self]
  · rename_i h; exact get_set_of_ne m v h

/-! ## The canonical form -/

theorem wf_cons (a : Nat) (v : Byte) (rest : Memory) :
    Memory.wf ((a, v) :: rest) = true ↔
      a < 4096 ∧ v ≠ unlisted a ∧ (∀ c ∈ rest, a < c.1) ∧ Memory.wf rest = true := by
  simp [Memory.wf, and_assoc]

theorem wf_drop {m : Memory} (a : Nat) (h : m.wf = true) : (m.drop a).wf = true := by
  induction m with
  | nil => rfl
  | cons c rest ih =>
    obtain ⟨b, w⟩ := c
    obtain ⟨hb, hw, hall, hrest⟩ := (wf_cons b w rest).1 h
    by_cases hba : b = a
    · simpa [Memory.drop, hba] using ih hrest
    · have hd : Memory.drop ((b, w) :: rest) a = (b, w) :: Memory.drop rest a := by simp [Memory.drop, hba]
      rw [hd, wf_cons]
      exact ⟨hb, hw, fun c hc => hall c (List.mem_of_mem_filter hc), ih hrest⟩

theorem mem_insert {m : Memory} {a : Nat} {v : Byte} {c : Host.Cell} (h : c ∈ m.insert a v) :
    c = (a, v) ∨ c ∈ m := by
  induction m with
  | nil => exact .inl (by simpa [Memory.insert] using h)
  | cons d rest ih =>
    obtain ⟨b, w⟩ := d
    by_cases hl : a < b
    · simpa [Memory.insert, hl] using h
    · rcases List.mem_cons.1 (by simpa [Memory.insert, hl] using h : c ∈ (b, w) :: Memory.insert rest a v) with rfl | hm
      · exact .inr List.mem_cons_self
      · exact (ih hm).imp id (List.mem_cons_of_mem _)

theorem wf_insert {m : Memory} {a : Nat} {v : Byte} (ha : a < 4096) (hv : v ≠ unlisted a)
    (h : m.wf = true) (hne : ∀ c ∈ m, c.1 ≠ a) : (m.insert a v).wf = true := by
  induction m with
  | nil => exact (wf_cons a v []).2 ⟨ha, hv, by simp, rfl⟩
  | cons d rest ih =>
    obtain ⟨b, w⟩ := d
    obtain ⟨hb, hw, hall, hrest⟩ := (wf_cons b w rest).1 h
    have hba : b ≠ a := hne _ List.mem_cons_self
    by_cases hl : a < b
    · simp only [Memory.insert, hl, if_true]
      refine (wf_cons a v _).2 ⟨ha, hv, fun c hc => ?_, h⟩
      rcases List.mem_cons.1 hc with rfl | hm
      · exact hl
      · exact lt_trans hl (hall c hm)
    · simp only [Memory.insert, hl, if_false]
      refine (wf_cons b w _).2 ⟨hb, hw, fun c hc => ?_, ih hrest fun c hc => hne c (List.mem_cons_of_mem _ hc)⟩
      rcases mem_insert hc with rfl | hm
      · exact lt_of_le_of_ne (not_lt.1 hl) hba
      · exact hall c hm

/-- A write below MEM_SIZE keeps the canonical form. -/
theorem wf_set {m : Memory} {a : Nat} (v : Byte) (ha : a < 4096) (h : m.wf = true) :
    (m.set a v).wf = true := by
  unfold Memory.set
  split
  · exact wf_drop a h
  · rename_i hv
    refine wf_insert ha hv (wf_drop a h) fun c hc => ?_
    simpa using (List.mem_filter.1 hc).2

/-- Loading an image keeps the canonical form (R132). -/
theorem wf_copyFrom {m : Memory} (a : Nat) (bs : List Byte) (h : m.wf = true) : (m.copyFrom a bs).wf = true := by
  induction bs generalizing m a with
  | nil => exact h
  | cons b bs ih =>
    refine ih (a + 1) ?_
    split
    · rename_i ha; exact wf_set b ha h
    · exact h

/-- What a loaded image reads as (R132, R133). -/
theorem get_copyFrom (m : Memory) (a : Nat) (bs : List Byte) (b : Nat) :
    (m.copyFrom a bs).get b =
      if h : a ≤ b ∧ b < 4096 ∧ b - a < bs.length then bs[b - a] else m.get b := by
  induction bs generalizing m a with
  | nil => simp [Memory.copyFrom]
  | cons v bs ih =>
    rw [Memory.copyFrom, ih]
    by_cases hlt : a < b
    · have e : b - a = (b - (a + 1)) + 1 := by omega
      by_cases hin : b < 4096 ∧ b - (a + 1) < bs.length
      · rw [dif_pos ⟨by omega, hin.1, hin.2⟩, dif_pos ⟨by omega, hin.1, by simp; omega⟩]
        simp [e]
      · rw [dif_neg (fun h => hin h.2), dif_neg (fun h => hin ⟨h.2.1, by have := h.2.2; simp at this; omega⟩)]
        split
        · exact get_set_of_ne m v (by omega)
        · rfl
    · rw [dif_neg (fun h => hlt h.1)]
      by_cases heq : a = b
      · subst heq
        by_cases hm : a < 4096
        · rw [if_pos hm, get_set_self, dif_pos ⟨le_refl _, hm, by simp⟩]; simp
        · rw [if_neg hm, dif_neg (fun h => hm h.2.1)]
      · rw [dif_neg (fun h => by omega)]
        split
        · exact get_set_of_ne m v (by omega)
        · rfl

/-! ## Checked accesses: what each can do -/

/-- MemWrite (R38): it raises with nothing written, or writes its byte. -/
theorem memWrite_cases (s : State) (a : Nat) (v : Byte) :
    (4096 ≤ a ∧ s.memWrite a v = .error (s.raise (.outOfBounds .write a))) ∨
    (a < 4096 ∧ s.memWrite a v = .ok (s.setMem (s.mem.set a v))) := by
  unfold State.memWrite
  split
  · exact .inl ⟨‹_›, rfl⟩
  · rename_i h
    rw [memSize_eq] at h
    exact .inr ⟨by omega, rfl⟩

/-- Stores that all fit complete with every byte written and nothing else changed (R99, R100). -/
theorem storeBytes_ok (s : State) (a : Nat) (vs : List Byte) (h : a + vs.length ≤ 4096) :
    s.storeBytes a vs = .ok (s.setMem (s.mem.copyFrom a vs)) := by
  induction vs generalizing s a with
  | nil => rfl
  | cons v vs ih =>
    have hlen : a + (vs.length + 1) ≤ 4096 := by simpa using h
    rcases memWrite_cases s a v with ⟨ha, _⟩ | ⟨ha, hw⟩
    · omega
    · rw [State.storeBytes, hw]
      simp only []
      rw [ih _ (a + 1) (by omega)]
      simp [State.setMem, Memory.copyFrom, ha]

/-- Stores that do not all fit raise at the first address past MEM_SIZE, with the bytes below it written
(R99, R100, R117). -/
theorem storeBytes_error (s : State) (a : Nat) (vs : List Byte) (h : 4096 < a + vs.length) (hne : vs ≠ []) :
    s.storeBytes a vs =
      .error ((s.setMem (s.mem.copyFrom a vs)).raise (.outOfBounds .write (max a 4096))) := by
  induction vs generalizing s a with
  | nil => exact absurd rfl hne
  | cons v vs ih =>
    rcases memWrite_cases s a v with ⟨ha, hw⟩ | ⟨ha, hw⟩
    · have hm : ∀ (bs : List Byte) (b : Nat), 4096 ≤ b → Memory.copyFrom s.mem b bs = s.mem := by
        intro bs
        induction bs with
        | nil => intros; rfl
        | cons c cs ihc => intro b hb; simp [Memory.copyFrom, Nat.not_lt.2 hb, ihc (b + 1) (by omega)]
      rw [State.storeBytes, hw, hm _ _ ha, max_eq_left ha]
      rfl
    · rw [State.storeBytes, hw]
      have hlen : 4096 < (a + 1) + vs.length := by simp at h; omega
      have hne' : vs ≠ [] := by rintro rfl; simp at hlen; omega
      simp only []
      rw [ih _ (a + 1) hlen hne']
      have hmax : max (a + 1) 4096 = max a 4096 := by omega
      rw [hmax]
      simp [State.setMem, Memory.copyFrom, ha, State.raise]

/-- Every store keeps the canonical form, whether or not it raises, and changes nothing but memory, status and
outcome. -/
theorem storeBytes_cases (s : State) (a : Nat) (vs : List Byte) :
    s.storeBytes a vs = .ok (s.setMem (s.mem.copyFrom a vs)) ∨
    s.storeBytes a vs =
      .error ((s.setMem (s.mem.copyFrom a vs)).raise (.outOfBounds .write (max a 4096))) := by
  by_cases h : a + vs.length ≤ 4096
  · exact .inl (storeBytes_ok s a vs h)
  · by_cases hne : vs = []
    · subst hne; exact .inl rfl
    · exact .inr (storeBytes_error s a vs (by omega) hne)

/-- Whether a sprite read at this address is refused (R109). -/
def spriteRefused (p : Params) (a : Nat) : Bool :=
  decide (a ≥ 4096) || (p.spriteReadLowerBound && decide (a < 0x200))

/-- SpriteRead (R109): it raises, or gives the byte. -/
theorem spriteRead_eq (s : State) (a : Nat) :
    s.spriteRead a =
      if spriteRefused s.params a then .error (s.raise (.outOfBounds .read a)) else .ok (s.mem.get a) := by
  unfold State.spriteRead State.memRead spriteRefused
  cases s.params.spriteReadLowerBound <;> simp [or_comm]

/-- Reading a sprite all of whose bytes may be read gives them in order (R109). -/
theorem readSprite_ok (s : State) (a n : Nat) (h : ∀ j < n, spriteRefused s.params (a + j) = false) :
    s.readSprite a n = .ok ((List.range n).map fun j => s.mem.get (a + j)) := by
  induction n generalizing a with
  | zero => rfl
  | succ n ih =>
    have h0 := h 0 (by omega)
    have hr := ih (a + 1) fun j hj => by have := h (j + 1) (by omega); rwa [show a + (j + 1) = a + 1 + j by omega] at this
    rw [State.readSprite, spriteRead_eq, if_neg (by simpa using h0)]
    simp only [hr, List.range_succ_eq_map, List.map_cons, List.map_map, Nat.add_zero]
    congr 2
    apply List.map_congr_left
    intro j _
    simp only [Function.comp_apply, Nat.succ_eq_add_one]
    congr 1
    omega

/-- A sprite read raises at the first byte that may not be read (R112). -/
theorem readSprite_error (s : State) (a n j : Nat) (hj : j < n) (hbad : spriteRefused s.params (a + j) = true)
    (hgood : ∀ k < j, spriteRefused s.params (a + k) = false) :
    s.readSprite a n = .error (s.raise (.outOfBounds .read (a + j))) := by
  induction j generalizing a n with
  | zero =>
    obtain ⟨m, rfl⟩ : ∃ m, n = m + 1 := ⟨n - 1, by omega⟩
    rw [State.readSprite, spriteRead_eq, if_pos (by simpa using hbad)]
    rfl
  | succ j ih =>
    obtain ⟨m, rfl⟩ : ∃ m, n = m + 1 := ⟨n - 1, by omega⟩
    have h0 := hgood 0 (by omega)
    have hr := ih (a + 1) m (by omega) (by rwa [show a + 1 + j = a + (j + 1) by omega])
      fun k hk => by have := hgood (k + 1) (by omega); rwa [show a + (k + 1) = a + 1 + k by omega] at this
    rw [State.readSprite, spriteRead_eq, if_neg (by simpa using h0)]
    simp only [hr]
    rw [show a + 1 + j = a + (j + 1) by omega]

/-- Reading a sprite gives bytes or takes a fatal outcome, and does nothing else (R109, R112). -/
theorem readSprite_cases (s : State) (a n : Nat) :
    (∃ rows, s.readSprite a n = .ok rows) ∨ (∃ b, s.readSprite a n = .error (s.raise (.outOfBounds .read b))) := by
  induction n generalizing a with
  | zero => exact .inl ⟨[], rfl⟩
  | succ n ih =>
    cases hb : spriteRefused s.params a with
    | true => exact .inr ⟨a, by simp [State.readSprite, spriteRead_eq, hb]⟩
    | false =>
      rcases ih (a + 1) with ⟨rows, h⟩ | ⟨b, h⟩
      · exact .inl ⟨s.mem.get a :: rows, by simp [State.readSprite, spriteRead_eq, hb, h]⟩
      · exact .inr ⟨b, by simp [State.readSprite, spriteRead_eq, hb, h]⟩

end Sys2Proof.Machine
end

