-- ==== Sys2Proof/Laws/PerInstr.lean ====
section
/-! SUPPORT. Statements for all instructions, one lemma per constructor. EncodingRow: an instruction's word lies in the row of spec/30_encoding.md R56 (or the named unimplemented row of R57) that the opcode table gives it. -/

namespace Sys2Proof.Laws.EncodingRow

/-- The mask and match of an instruction's row, as spec/opcode_table.json lists them; the catch-all row has
mask 0 and match 0. -/
def rowOf : Instr → Word × Word
  | .cls => (0xFFFF#16, 0x00E0#16)
  | .ret => (0xFFFF#16, 0x00EE#16)
  | .jp _ => (0xF000#16, 0x1000#16)
  | .call _ => (0xF000#16, 0x2000#16)
  | .seImm _ _ => (0xF000#16, 0x3000#16)
  | .sneImm _ _ => (0xF000#16, 0x4000#16)
  | .seReg _ _ _ => (0xF000#16, 0x5000#16)
  | .ldImm _ _ => (0xF000#16, 0x6000#16)
  | .addImm _ _ => (0xF000#16, 0x7000#16)
  | .ldReg _ _ => (0xF00F#16, 0x8000#16)
  | .orReg _ _ => (0xF00F#16, 0x8001#16)
  | .andReg _ _ => (0xF00F#16, 0x8002#16)
  | .xorReg _ _ => (0xF00F#16, 0x8003#16)
  | .addReg _ _ => (0xF00F#16, 0x8004#16)
  | .sub _ _ => (0xF00F#16, 0x8005#16)
  | .shr _ _ => (0xF00F#16, 0x8006#16)
  | .subn _ _ => (0xF00F#16, 0x8007#16)
  | .shl _ _ => (0xF00F#16, 0x800E#16)
  | .sneReg _ _ _ => (0xF000#16, 0x9000#16)
  | .ldI _ => (0xF000#16, 0xA000#16)
  | .jpV0 _ => (0xF000#16, 0xB000#16)
  | .rnd _ _ => (0xF000#16, 0xC000#16)
  | .drw _ _ _ => (0xF000#16, 0xD000#16)
  | .addI _ => (0xF0FF#16, 0xF01E#16)
  | .ldB _ => (0xF0FF#16, 0xF033#16)
  | .ldMemI _ => (0xF0FF#16, 0xF055#16)
  | .unimplKey _ => (0xF000#16, 0xE000#16)
  | .unimplGlyph _ => (0xF0FF#16, 0xF029#16)
  | .unimpl _ => (0x0000#16, 0x0000#16)

/-- The instruction's word selects its row. -/
def Statement (i : Instr) : Prop := encode i &&& (rowOf i).1 = (rowOf i).2

theorem mask_nnn (c : Nibble) (a : Addr) : (c ++ a : Word) &&& 0xF000#16 = c ++ 0x000#12 := by
  apply BitVec.eq_of_getLsbD_eq
  intro i hi
  rw [BitVec.getLsbD_and, bit_nnn, bit_nnn]
  interval_cases i <;> simp

theorem mask_xkk (c : Nibble) (x : Reg) (kk : Byte) : (c ++ x ++ kk : Word) &&& 0xF0FF#16 = c ++ 0x0#4 ++ kk := by
  apply BitVec.eq_of_getLsbD_eq
  intro i hi
  rw [BitVec.getLsbD_and, bit_xkk, bit_xkk]
  interval_cases i <;> simp

theorem mask_xyn (c : Nibble) (x y : Reg) (n : Nibble) : (c ++ x ++ y ++ n : Word) &&& 0xF00F#16 = c ++ 0x0#4 ++ 0x0#4 ++ n := by
  apply BitVec.eq_of_getLsbD_eq
  intro i hi
  rw [BitVec.getLsbD_and, bit_xyn, bit_xyn]
  interval_cases i <;> simp

theorem mask_class_xkk (c : Nibble) (x : Reg) (kk : Byte) : (c ++ x ++ kk : Word) &&& 0xF000#16 = c ++ 0x000#12 := by
  apply BitVec.eq_of_getLsbD_eq
  intro i hi
  rw [BitVec.getLsbD_and, bit_xkk, bit_nnn]
  interval_cases i <;> simp

theorem mask_class_xyn (c : Nibble) (x y : Reg) (n : Nibble) : (c ++ x ++ y ++ n : Word) &&& 0xF000#16 = c ++ 0x000#12 := by
  apply BitVec.eq_of_getLsbD_eq
  intro i hi
  rw [BitVec.getLsbD_and, bit_xyn, bit_nnn]
  interval_cases i <;> simp

theorem cls : Statement .cls := by simp [Statement, rowOf, encode]
theorem ret : Statement .ret := by simp [Statement, rowOf, encode]
theorem jp (nnn : Addr) : Statement (.jp nnn) := mask_nnn 0x1#4 nnn
theorem call (nnn : Addr) : Statement (.call nnn) := mask_nnn 0x2#4 nnn
theorem seImm (x : Reg) (kk : Byte) : Statement (.seImm x kk) := mask_class_xkk 0x3#4 x kk
theorem sneImm (x : Reg) (kk : Byte) : Statement (.sneImm x kk) := mask_class_xkk 0x4#4 x kk
theorem seReg (x y : Reg) (n : Nibble) : Statement (.seReg x y n) := mask_class_xyn 0x5#4 x y n
theorem ldImm (x : Reg) (kk : Byte) : Statement (.ldImm x kk) := mask_class_xkk 0x6#4 x kk
theorem addImm (x : Reg) (kk : Byte) : Statement (.addImm x kk) := mask_class_xkk 0x7#4 x kk
theorem ldReg (x y : Reg) : Statement (.ldReg x y) := mask_xyn 0x8#4 x y 0x0#4
theorem orReg (x y : Reg) : Statement (.orReg x y) := mask_xyn 0x8#4 x y 0x1#4
theorem andReg (x y : Reg) : Statement (.andReg x y) := mask_xyn 0x8#4 x y 0x2#4
theorem xorReg (x y : Reg) : Statement (.xorReg x y) := mask_xyn 0x8#4 x y 0x3#4
theorem addReg (x y : Reg) : Statement (.addReg x y) := mask_xyn 0x8#4 x y 0x4#4
theorem sub (x y : Reg) : Statement (.sub x y) := mask_xyn 0x8#4 x y 0x5#4
theorem shr (x y : Reg) : Statement (.shr x y) := mask_xyn 0x8#4 x y 0x6#4
theorem subn (x y : Reg) : Statement (.subn x y) := mask_xyn 0x8#4 x y 0x7#4
theorem shl (x y : Reg) : Statement (.shl x y) := mask_xyn 0x8#4 x y 0xE#4
theorem sneReg (x y : Reg) (n : Nibble) : Statement (.sneReg x y n) := mask_class_xyn 0x9#4 x y n
theorem ldI (nnn : Addr) : Statement (.ldI nnn) := mask_nnn 0xA#4 nnn
theorem jpV0 (nnn : Addr) : Statement (.jpV0 nnn) := mask_nnn 0xB#4 nnn
theorem rnd (x : Reg) (kk : Byte) : Statement (.rnd x kk) := mask_class_xkk 0xC#4 x kk
theorem drw (x y : Reg) (n : Nibble) : Statement (.drw x y n) := mask_class_xyn 0xD#4 x y n
theorem addI (x : Reg) : Statement (.addI x) := mask_xkk 0xF#4 x 0x1E#8
theorem ldB (x : Reg) : Statement (.ldB x) := mask_xkk 0xF#4 x 0x33#8
theorem ldMemI (x : Reg) : Statement (.ldMemI x) := mask_xkk 0xF#4 x 0x55#8
theorem unimplKey (nnn : Addr) : Statement (.unimplKey nnn) := mask_nnn 0xE#4 nnn
theorem unimplGlyph (x : Reg) : Statement (.unimplGlyph x) := mask_xkk 0xF#4 x 0x29#8
theorem unimpl (w : Word) : Statement (.unimpl w) := by simp [Statement, rowOf]

end Sys2Proof.Laws.EncodingRow
end

