-- ==== Sys2Proof/Laws/Step.lean ====
section
/-! SUPPORT. What a step, its fetch, and the stack operations can do, each said once; and how the frame predicates compose. -/

namespace Sys2Proof.Machine

/-- Push (R22): STACK_OVERFLOW with nothing changed, or the slot at SP written and SP one higher. -/
theorem push_cases (s : State) (v word : Word) :
    (s.sp.val = 16 ∧ s.push v word = .error (s.raise (.stackOverflow word))) ∨
    (∃ (slots : Vector Word 16) (depth : Fin 17), s.sp.val < 16 ∧
      s.push v word = .ok { s with stack := slots, sp := depth } ∧ depth.val = s.sp.val + 1 ∧
      ∀ j : Fin 16, slots[j] = if j.val = s.sp.val then v else s.stack[j]) := by
  have hlt := s.sp.isLt
  unfold State.push
  split
  · exact .inl ⟨‹_›, rfl⟩
  · rename_i h
    refine .inr ⟨_, _, by simp only [Config.stackCap] at h; omega, rfl, rfl, fun j => ?_⟩
    simp only [Fin.getElem_fin, Vector.getElem_set]
    by_cases e : j.val = s.sp.val
    · simp [e]
    · simp [e, Ne.symm e]

/-- Pop (R23): STACK_UNDERFLOW with nothing changed, or the top slot's value and SP one lower. -/
theorem pop_cases (s : State) (word : Word) :
    (s.sp.val = 0 ∧ s.pop word = .error (s.raise (.stackUnderflow word))) ∨
    (∃ (j : Fin 16) (depth : Fin 17), j.val + 1 = s.sp.val ∧ depth.val = j.val ∧
      s.pop word = .ok (s.stack[j], { s with sp := depth })) := by
  have hlt := s.sp.isLt
  unfold State.pop
  split
  · exact .inl ⟨‹_›, rfl⟩
  · rename_i h
    exact .inr ⟨⟨s.sp.val - 1, by omega⟩, ⟨s.sp.val - 1, by omega⟩, by simp only []; omega, rfl, rfl⟩

/-- Execute always answers a next state: a fatal outcome is taken, never a stop (R70, R116). -/
theorem exec_next (i : Instr) (s : State) : ∃ t, exec i s = .next t := by
  cases i with
  | ret => simp only [exec, execRet]; split <;> exact ⟨_, rfl⟩
  | call nnn => simp only [exec, execCall]; split <;> exact ⟨_, rfl⟩
  | drw x y n => simp only [exec, execDrw]; split <;> exact ⟨_, rfl⟩
  | ldB x => simp only [exec, execLdB, finish]; split <;> exact ⟨_, rfl⟩
  | ldMemI x => simp only [exec, execLdMemI, finish]; split <;> exact ⟨_, rfl⟩
  | _ => exact ⟨_, rfl⟩

/-- The kind under R63's and R66's reading. -/
theorem oddFetchKind_of_fetchOdd {p : Params} (h : p.oddFaultKind = .fetchOdd) : oddFetchKind p = .fetchOdd := by
  simp [oddFetchKind, h]

/-- The kind under R40's reading. -/
theorem oddFetchKind_of_fetch {p : Params} (h : p.oddFaultKind = .fetch) : oddFetchKind p = .fetch := by
  simp [oddFetchKind, h]

/-- What a step answers in each case (R68, R118). -/
theorem step_cases (s : State) :
    (∃ o, s.status = .faulted o ∧ step s = .fault (.engineFaulted o)) ∨
    (s.status = .running ∧ 4096 ≤ s.pc.toNat + 1 ∧ step s = .next (s.setOutcome (.exhausted s.pc))) ∨
    (s.status = .running ∧ s.pc.toNat < 0x200 ∧ step s = .next (s.raise (.outOfBounds .fetch s.pc.toNat))) ∨
    (s.status = .running ∧ s.pc.toNat + 1 < 4096 ∧ 0x200 ≤ s.pc.toNat ∧
      s.pc.toNat % 2 = 1 ∧ s.params.oddPcPolicy = .fault ∧
      step s = .next (s.raise (.outOfBounds (oddFetchKind s.params) s.pc.toNat))) ∨
    (s.status = .running ∧ s.pc.toNat + 1 < 4096 ∧ 0x200 ≤ s.pc.toNat ∧
      (s.pc.toNat % 2 = 1 → s.params.oddPcPolicy = .fetch) ∧
      step s = exec (decode (wordOfBytes (s.mem.get s.pc.toNat) (s.mem.get (s.pc.toNat + 1))))
        ((s.setPc (s.pc + 2#16)).setOutcome .ok)) := by
  have hm : Config.memSize = 4096 := rfl
  have hp : Config.progStart = 0x200 := rfl
  unfold step beginStep
  cases hs : s.status with
  | faulted o => exact .inl ⟨o, rfl, rfl⟩
  | running =>
    refine .inr ?_
    by_cases h1 : s.pc.toNat + 1 ≥ Config.memSize
    · exact .inl ⟨rfl, h1, by simp [fetch, h1]⟩
    by_cases h2 : s.pc.toNat < Config.progStart
    · exact .inr (.inl ⟨rfl, h2, by simp [fetch, h1, h2]⟩)
    by_cases h3 : s.pc.toNat % 2 = 1 ∧ s.params.oddPcPolicy = .fault
    · exact .inr (.inr (.inl ⟨rfl, by omega, by omega, h3.1, h3.2, by simp [fetch, h1, h2, h3]⟩))
    · refine .inr (.inr (.inr ⟨rfl, by omega, by omega, fun ho => ?_, by simp only [fetch, h1, h2, h3, if_false]⟩))
      cases hp : s.params.oddPcPolicy with
      | fetch => rfl
      | fault => exact absurd ⟨ho, hp⟩ h3

/-! ## Frames -/

theorem Kept.refl (p : Part) (s : State) : Kept p s s := by cases p <;> simp [Kept]

theorem KeepsAllBut.refl (ps : List Part) (s : State) : KeepsAllBut ps s s := fun p _ => Kept.refl p s

theorem Kept.trans {p : Part} {s t u : State} (h : Kept p s t) (k : Kept p t u) : Kept p s u := by
  cases p <;> simp_all [Kept]

theorem KeepsAllBut.trans {ps : List Part} {s t u : State} (h : KeepsAllBut ps s t) (k : KeepsAllBut ps t u) :
    KeepsAllBut ps s u := fun p hp => (h p hp).trans (k p hp)

theorem KeepsAllBut.mono {ps qs : List Part} {s t : State} (h : KeepsAllBut ps s t) (hsub : ps ⊆ qs) :
    KeepsAllBut qs s t := fun p hp => h p fun hm => hp (hsub hm)

theorem keepsAllBut_writeV (s : State) (r : Reg) (b : Byte) : KeepsAllBut [.v] s (s.writeV r b) := by
  intro p hp; cases p <;> simp_all [Kept]

theorem keepsAllBut_setPc (s : State) (a : Word) : KeepsAllBut [.pc] s (s.setPc a) := by
  intro p hp; cases p <;> simp_all [Kept]

theorem keepsAllBut_setI (s : State) (a : Word) : KeepsAllBut [.I] s (s.setI a) := by
  intro p hp; cases p <;> simp_all [Kept]

theorem keepsAllBut_setFb (s : State) (f : Framebuffer) : KeepsAllBut [.fb] s (s.setFb f) := by
  intro p hp; cases p <;> simp_all [Kept]

theorem keepsAllBut_setMem (s : State) (m : Memory) : KeepsAllBut [.mem] s (s.setMem m) := by
  intro p hp; cases p <;> simp_all [Kept]

theorem keepsAllBut_raise (s : State) (f : Word → FatalOutcome) : KeepsAllBut [.status, .outcome] s (s.raise f) := by
  intro p hp; cases p <;> simp_all [Kept]

theorem keepsAllBut_reportUnimpl (s : State) (w : Word) : KeepsAllBut [.outcome, .mark] s (s.reportUnimpl w) := by
  intro p hp; cases p <;> simp_all [Kept]

theorem keepsAllBut_writeResultFlag (s : State) (x : Reg) (rf : Byte × Byte) :
    KeepsAllBut [.v] s (s.writeResultFlag x rf) := by
  unfold State.writeResultFlag
  split <;> exact (keepsAllBut_writeV _ _ _).trans (keepsAllBut_writeV _ _ _)

theorem regsKeptBut_writeV (s : State) (r : Reg) (b : Byte) : RegsKeptBut [r] s (s.writeV r b) := by
  intro q hq
  exact readV_writeV_of_ne s b fun h => hq (by simp [h])

/-- A state that differs in pc alone keeps every other part. -/
theorem keepsAllBut_skipIf (s : State) (c : Bool) : KeepsAllBut [.pc] s (s.skipIf c) := by
  unfold State.skipIf
  split
  · exact keepsAllBut_setPc _ _
  · exact KeepsAllBut.refl _ _

/-- R83's write, in the terms claims use. -/
theorem resultAndFlagWritten_writeResultFlag (s : State) (x : Reg) (rf : Byte × Byte) :
    ResultAndFlagWritten x rf.1 rf.2 s (s.writeResultFlag x rf) := by
  refine ⟨fun h => ⟨writeResultFlag_dest s rf h, writeResultFlag_flag s rf h⟩, ?_, ?_, ?_, keepsAllBut_writeResultFlag s x rf⟩
  · rintro rfl h; rw [writeResultFlag_vf, h]
  · rintro rfl h; rw [writeResultFlag_vf, h]
  · intro r hr
    exact writeResultFlag_other s rf (fun h => hr (by simp [h])) (fun h => hr (by simp [h]))

end Sys2Proof.Machine
end

