-- ==== Sys2Proof/Tests/Slice0.lean ====
section
/-! SUPPORT. The model's own tests. Expected results come from spec/95_test_vectors.md and the examples in the rules, never from the model; witness_<Name> shows that the hypotheses of Obligations.<Name> can all be met, at a boundary value for each clause. -/

namespace Sys2Proof.Tests

open Sys2Proof Sys2Proof.Machine

/-- A value read off the next state, or none where the machine stops. -/
def after {α : Type} (o : Host.Outcome State Fault Refusal) (f : State → α) : Option α :=
  match o with
  | .next t => some (f t)
  | .fault _ => none
  | .refused _ => none

/-- The state after the fetch at 0x200: reset with pc = 0x202. -/
def s0 : State := State.reset.setPc 0x0202#16

/-- `s0` with V1 and V2 set. -/
def sXY (a b : Byte) : State := (s0.writeV 0x1 a).writeV 0x2 b

/-- `s` with VF_WRITE_ORDER = result_then_flag. -/
def resultFirst (s : State) : State := { s with params := { s.params with vfWriteOrder := .resultThenFlag } }

/-! ## Well-formedness refuses ill-formed terms -/

theorem test_wf_refuses_instruction_words : opcodeRows.all (fun r => !(Instr.unimpl r.pattern).wellFormed) = true := by
  decide
theorem test_wf_refuses_key_word : (Instr.unimpl 0xE09E#16).wellFormed = false := by decide
theorem test_wf_refuses_glyph_word : (Instr.unimpl 0xF029#16).wellFormed = false := by decide
theorem test_wf_accepts_other_words :
    (Instr.unimpl 0x0123#16).wellFormed = true ∧ (Instr.unimpl 0x8128#16).wellFormed = true ∧
    (Instr.unimpl 0xF065#16).wellFormed = true := by decide

/-! ## Decoding: one word per constructor, written out from the encodings of 30_encoding.md R51 and R56 -/

theorem test_decode_cls : decode 0b0000000011100000#16 = .cls := by decide
theorem test_decode_ret : decode 0b0000000011101110#16 = .ret := by decide
theorem test_decode_jp : decode 0b0001001000110100#16 = .jp 0x234 := by decide
theorem test_decode_call : decode 0b0010001100000000#16 = .call 0x300 := by decide
theorem test_decode_seImm : decode 0b0011001101000010#16 = .seImm 0x3 0x42 := by decide
theorem test_decode_sneImm : decode 0b0100001101000010#16 = .sneImm 0x3 0x42 := by decide
theorem test_decode_seReg : decode 0b0101000100100101#16 = .seReg 0x1 0x2 0x5 := by decide
theorem test_decode_ldImm : decode 0b0110101001111011#16 = .ldImm 0xA 0x7B := by decide
theorem test_decode_addImm : decode 0b0111000000000001#16 = .addImm 0x0 0x01 := by decide
theorem test_decode_ldReg : decode 0b1000000100100000#16 = .ldReg 0x1 0x2 := by decide
theorem test_decode_orReg : decode 0b1000000100100001#16 = .orReg 0x1 0x2 := by decide
theorem test_decode_andReg : decode 0b1000000100100010#16 = .andReg 0x1 0x2 := by decide
theorem test_decode_xorReg : decode 0b1000000100100011#16 = .xorReg 0x1 0x2 := by decide
theorem test_decode_addReg : decode 0b1000000000010100#16 = .addReg 0x0 0x1 := by decide
theorem test_decode_sub : decode 0b1000000100100101#16 = .sub 0x1 0x2 := by decide
theorem test_decode_shr : decode 0b1000000001010110#16 = .shr 0x0 0x5 := by decide
theorem test_decode_subn : decode 0b1000000100100111#16 = .subn 0x1 0x2 := by decide
theorem test_decode_shl : decode 0b1000000100101110#16 = .shl 0x1 0x2 := by decide
theorem test_decode_sneReg : decode 0b1001101010110111#16 = .sneReg 0xA 0xB 0x7 := by decide
theorem test_decode_ldI : decode 0b1010000100100011#16 = .ldI 0x123 := by decide
theorem test_decode_jpV0 : decode 0b1011000100100011#16 = .jpV0 0x123 := by decide
theorem test_decode_rnd : decode 0b1100001111110000#16 = .rnd 0x3 0xF0 := by decide
theorem test_decode_drw : decode 0b1101000100101111#16 = .drw 0x1 0x2 0xF := by decide
theorem test_decode_addI : decode 0b1111000100011110#16 = .addI 0x1 := by decide
theorem test_decode_ldB : decode 0b1111001100110011#16 = .ldB 0x3 := by decide
theorem test_decode_ldMemI : decode 0b1111111101010101#16 = .ldMemI 0xF := by decide
theorem test_decode_unimplKey : decode 0b1110000010011110#16 = .unimplKey 0x09E := by decide
theorem test_decode_unimplGlyph : decode 0b1111000000101001#16 = .unimplGlyph 0x0 := by decide
theorem test_decode_unimpl : decode 0b0000000011100001#16 = .unimpl 0x00E1 := by decide
theorem test_decode_bytes : decodeBytes [0xD1#8, 0x2F#8, 0x55#8] = .ok (.drw 0x1 0x2 0xF, [0x55#8]) := by decide
theorem test_decode_truncated : decodeBytes [0xD1#8] = .error .truncatedWord := by decide
theorem test_decode_table_word : decodeTableWord 16 0xF333 = some (.ldB 0x3) := by decide

/-! ## Instructions: 95_test_vectors.md sections 1 and 2 -/

theorem test_cls : after (exec .cls (s0.setFb (Framebuffer.clear.setPixel 3 4 true))) (fun t => t.fb.pixel 3 4) = some false := by
  decide
theorem test_ret : after (exec .ret { s0 with sp := 2, stack := (s0.stack.set 0 0x0206#16).set 1 0x0402#16 })
    (fun t => (t.pc, t.sp)) = some (0x0402#16, 1) := by decide
theorem test_ret_empty : after (exec .ret s0) (fun t => (t.pc, t.status)) =
    some (0x0202#16, .faulted (.stackUnderflow 0x00EE#16 0x0202#16)) := by decide
theorem test_jp : after (exec (.jp 0x234) s0) State.pc = some 0x0234#16 := by decide
theorem test_call_sixteenth : after (exec (.call 0x300) { s0 with sp := 15 }) (fun t => (t.stack[15], t.sp, t.pc)) =
    some (0x0202#16, 16, 0x0300#16) := by decide
theorem test_call_seventeenth : after (exec (.call 0x300) { s0 with sp := 16 }) (fun t => (t.sp, t.pc, t.outcome)) =
    some (16, 0x0202#16, .fatal (.stackOverflow 0x2300#16 0x0202#16)) := by decide
theorem test_jpV0 : after (exec (.jpV0 0xFFF) (s0.writeV 0x0 0xFF)) State.pc = some 0x10FE#16 := by decide
theorem test_seImm : after (exec (.seImm 0x3 0x42) (s0.writeV 0x3 0x42)) State.pc = some 0x0204#16 := by decide
theorem test_sneImm : after (exec (.sneImm 0x3 0x42) (s0.writeV 0x3 0x42)) State.pc = some 0x0202#16 := by decide
theorem test_seReg_nibble : after (exec (.seReg 0x1 0x2 0x5) (sXY 7 7)) State.pc = some 0x0204#16 := by decide
theorem test_sneReg : after (exec (.sneReg 0x1 0x2 0x0) (sXY 7 8)) State.pc = some 0x0204#16 := by decide
theorem test_ldImm : after (exec (.ldImm 0xA 0x7B) s0) (fun t => t.readV 0xA) = some 0x7B#8 := by decide
theorem test_addImm : after (exec (.addImm 0x0 0x01) ((s0.writeV 0x0 0xFF).writeV 0xF 0x55))
    (fun t => (t.readV 0x0, t.readV 0xF)) = some (0x00#8, 0x55#8) := by decide
theorem test_ldReg : after (exec (.ldReg 0x1 0x2) (sXY 0 0x5A)) (fun t => t.readV 0x1) = some 0x5A#8 := by decide
theorem test_orReg : after (exec (.orReg 0x1 0x2) ((sXY 0xF0 0x0F).writeV 0xF 1)) (fun t => (t.readV 0x1, t.readV 0xF)) =
    some (0xFF#8, 0x01#8) := by decide
theorem test_andReg : after (exec (.andReg 0x1 0x2) (sXY 0xF0 0x3C)) (fun t => t.readV 0x1) = some 0x30#8 := by decide
theorem test_xorReg : after (exec (.xorReg 0x1 0x1) (sXY 0x5A 0)) (fun t => t.readV 0x1) = some 0x00#8 := by decide
theorem test_addReg : after (exec (.addReg 0x1 0x2) (sXY 0x80 0x80)) (fun t => (t.readV 0x1, t.readV 0xF)) =
    some (0x00#8, 0x01#8) := by decide
theorem test_addReg_vf : after (exec (.addReg 0xF 0x0) ((s0.writeV 0xF 0xFF).writeV 0x0 0x03)) (fun t => t.readV 0xF) =
    some 0x02#8 := by decide
theorem test_sub_equal : after (exec (.sub 0x1 0x2) (sXY 5 5)) (fun t => (t.readV 0x1, t.readV 0xF)) =
    some (0x00#8, 0x00#8) := by decide
theorem test_sub_wraps : after (exec (.sub 0x1 0x2) (sXY 3 5)) (fun t => (t.readV 0x1, t.readV 0xF)) =
    some (0xFE#8, 0x00#8) := by decide
theorem test_shr : after (exec (.shr 0x0 0x5) ((s0.writeV 0x0 0xFF).writeV 0x5 0x08)) (fun t => (t.readV 0x0, t.readV 0xF)) =
    some (0x7F#8, 0x01#8) := by decide
theorem test_shr_vf : after (exec (.shr 0xF 0x0) (resultFirst (s0.writeV 0xF 0x05))) (fun t => t.readV 0xF) =
    some 0x01#8 := by decide
theorem test_subn : after (exec (.subn 0x1 0x2) (sXY 3 5)) (fun t => (t.readV 0x1, t.readV 0xF)) =
    some (0x02#8, 0x01#8) := by decide
theorem test_shl_msb : after (exec (.shl 0x0 0x0) (s0.writeV 0x0 0x80)) (fun t => (t.readV 0x0, t.readV 0xF)) =
    some (0x00#8, 0x01#8) := by decide
theorem test_shl_lsb : after (exec (.shl 0x0 0x0)
      { s0.writeV 0x0 0x80 with params := { Params.default with shlFlagSource := .lsb } }) (fun t => (t.readV 0x0, t.readV 0xF)) =
    some (0x00#8, 0x00#8) := by decide
theorem test_ldI : after (exec (.ldI 0x123) s0) State.I = some 0x0123#16 := by decide
theorem test_addI : after (exec (.addI 0x0) (((s0.setI 0xFFFF).writeV 0x0 1).writeV 0xF 0xAA)) (fun t => (t.I, t.readV 0xF)) =
    some (0x0000#16, 0xAA#8) := by decide
theorem test_ldB : after (exec (.ldB 0x0) ((s0.setI 0x600).writeV 0x0 123))
    (fun t => (t.mem.get 0x600, t.mem.get 0x601, t.mem.get 0x602, t.I)) = some (1#8, 2#8, 3#8, 0x0600#16) := by decide
theorem test_ldB_past_end : after (exec (.ldB 0x0) ((s0.setI 0xFFE).writeV 0x0 0x7B))
    (fun t => (t.mem.get 0xFFE, t.mem.get 0xFFF, t.pc, t.status)) =
    some (1#8, 2#8, 0x0202#16, .faulted (.outOfBounds .write 0x1000 0x0202#16)) := by decide
theorem test_ldMemI : after (exec (.ldMemI 0x2) (((s0.setI 0x500).writeV 0x0 1).writeV 0x2 3))
    (fun t => (t.mem.get 0x500, t.mem.get 0x502, t.mem.get 0x503, t.I)) = some (1#8, 3#8, 0#8, 0x0500#16) := by decide
theorem test_ldMemI_past_end : after (exec (.ldMemI 0x2) ((s0.setI 0xFFF).writeV 0x0 1))
    (fun t => (t.mem.get 0xFFF, t.outcome)) = some (1#8, .fatal (.outOfBounds .write 0x1000 0x0202#16)) := by decide
/-- 45_random.md R103: kk = 0 gives 0 whatever the draw, and one draw is made. -/
theorem test_rnd_zero_mask : after (exec (.rnd 0x0 0x00) s0) (fun t => (t.readV 0x0, t.draws)) = some (0x00#8, 1) := by
  simp [exec, execRnd, after, s0, State.reset]
/-- S8: wraparound at column 60. -/
theorem test_drw_wraps : after (exec (.drw 0x0 0x1 0x1) (((s0.setI 0x300).setMem [(0x300, 0xFF#8)]).writeV 0x0 60))
    (fun t => (t.fb.pixel 59 0, t.fb.pixel 63 0, t.fb.pixel 0 0, t.fb.pixel 3 0, t.fb.pixel 4 0, t.readV 0xF)) =
    some (false, true, true, true, false, 0x00#8) := by decide
theorem test_drw_low_sprite : after (exec (.drw 0x0 0x1 0x2) (s0.setI 0x1FF)) (fun t => (t.fb.pixel 0 0, t.outcome)) =
    some (false, .fatal (.outOfBounds .read 0x1FF 0x0202#16)) := by decide
theorem test_unimplKey : after (exec (.unimplKey 0x09E) s0) (fun t => (t.outcome, t.unimplSeen, t.status)) =
    some (.unimplemented 0xE09E#16, true, .running) := by decide
theorem test_unimplGlyph : after (exec (.unimplGlyph 0x0) s0) (fun t => (t.outcome, t.pc)) =
    some (.unimplemented 0xF029#16, 0x0202#16) := by decide
theorem test_unimpl : after (exec (.unimpl 0x0000#16) s0) (fun t => (t.outcome, t.pc)) =
    some (.unimplemented 0x0000#16, 0x0202#16) := by decide

/-! ## The cycle: 95_test_vectors.md section 2.2 -/

/-- S1. -/
theorem test_step_first : after (step (State.reset.withFetchWord 16 0x6008)) (fun t => (t.readV 0x0, t.pc, t.outcome)) =
    some (0x08#8, 0x0202#16, .ok) := by decide
theorem test_step_exhausted : after (step (State.reset.setPc 0x0FFF)) (fun t => (t.outcome, t.pc, t.status)) =
    some (.exhausted 0x0FFF#16, 0x0FFF#16, .running) := by decide
/-- The lower bound is checked before the odd pc (R118). -/
theorem test_step_low : after (step (State.reset.setPc 0x01FF)) (fun t => (t.status, t.pc)) =
    some (.faulted (.outOfBounds .fetch 0x1FF 0x01FF#16), 0x01FF#16) := by decide
/-- Image 12 01 60 00 with pc = 0201: the word 0160. -/
theorem test_step_odd : after (step ((State.reset.load [0x12, 0x01, 0x60, 0x00]).setPc 0x0201)) (fun t => (t.outcome, t.pc)) =
    some (.unimplemented 0x0160#16, 0x0203#16) := by decide

/-! ## Host operations: 95_test_vectors.md section 2.9 -/

theorem test_decSound : ({ s0 with st := 1 }.decSound.1.st, { s0 with st := 1 }.decSound.2, s0.decSound.2) = (0#8, true, false) := by
  decide
theorem test_decDelay : ({ s0 with dt := 5 }.decDelay.dt, s0.decDelay.dt) = (4#8, 0#8) := by decide
theorem test_load : ((s0.load [0x12, 0x34]).mem.get 0x200, (s0.load [0x12, 0x34]).mem.get 0x201,
    (s0.load [0x12, 0x34]).mem.get 0x202) = (0x12#8, 0x34#8, 0#8) := by decide

/-! ## Witnesses: the hypotheses of each statement can be met -/

/-- A running state at the last fetchable even address and at the first. -/
def atPc (pc : Word) : State := State.reset.setPc pc

theorem witness_DecodeEncodeRoundTrip : (Instr.unimpl 0x0123#16).wellFormed = true ∧ (Instr.jp 0xFFF).wellFormed = true := by
  decide
theorem witness_IgnoredBitsDoNotMatter :
    (0x5120#16 &&& 0xF000#16 = 0x5000#16 ∧ 0x5120#16 &&& 0xFFF0#16 = 0x512F#16 &&& 0xFFF0#16) ∧
    (0x9120#16 &&& 0xF000#16 = 0x9000#16 ∧ 0x9120#16 &&& 0xFFF0#16 = 0x912F#16 &&& 0xFFF0#16) ∧
    (0x8106#16 &&& 0xF00F#16 = 0x8006#16 ∧ 0x8106#16 &&& 0xFF0F#16 = 0x81F6#16 &&& 0xFF0F#16) ∧
    (0x810E#16 &&& 0xF00F#16 = 0x800E#16 ∧ 0x810E#16 &&& 0xFF0F#16 = 0x81FE#16 &&& 0xFF0F#16) ∧
    (0xF11E#16 &&& 0xF0FF#16 = 0xF01E#16 ∧ 0xF133#16 &&& 0xF0FF#16 = 0xF033#16 ∧ 0xF155#16 &&& 0xF0FF#16 = 0xF055#16) := by
  decide
theorem witness_StepRunsTheDecodedInstruction :
    (atPc 0x0FFE).status = .running ∧ (atPc 0x0FFE).pc.toNat + 1 < 4096 ∧ 0x200 ≤ (atPc 0x0FFE).pc.toNat ∧
    ((atPc 0x0FFE).pc.toNat % 2 = 1 → (atPc 0x0FFE).params.oddPcPolicy = .fetch) ∧
    decodeBytes [(atPc 0x0FFE).mem.get 0xFFE, (atPc 0x0FFE).mem.get 0xFFF] = .ok (.unimpl 0x0000, []) := by decide
theorem witness_StepRunsTheDecodedInstruction_odd :
    (atPc 0x0201).status = .running ∧ 0x200 ≤ (atPc 0x0201).pc.toNat ∧ (atPc 0x0201).pc.toNat % 2 = 1 ∧
    (atPc 0x0201).params.oddPcPolicy = .fetch := by decide
theorem witness_FetchPastEndIsExhausted : (atPc 0x0FFF).status = .running ∧ 0xFFF ≤ (atPc 0x0FFF).pc.toNat := by decide
theorem witness_FetchBelowProgramRaises :
    ((atPc 0x01FF).status = .running ∧ (atPc 0x01FF).pc.toNat < 0x200) ∧
    (∃ t, exec (.jp 0x1FF) (atPc 0x0200) = .next t ∧ 0x200 ≤ (atPc 0x0200).pc.toNat ∧ (atPc 0x0200).pc.toNat ≤ 0x1000 ∧
      t.pc.toNat < 0x200) :=
  ⟨by decide, _, rfl, by decide, by decide, by decide⟩
/-- `atPc 0x0201` under ODD_PC_POLICY = fault. -/
def oddFaulting : State := { atPc 0x0201 with params := { Params.default with oddPcPolicy := .fault } }
/-- The same under R40's reading of the fault's kind (log entry 21). -/
def oddFaultingFetch : State := { oddFaulting with params := { oddFaulting.params with oddFaultKind := .fetch } }
/-- 95_test_vectors.md, the odd pc under ODD_PC_POLICY = fault: kind FETCH_ODD, addr 0201, FAULTED. -/
theorem test_oddFetch_fetchOdd : step oddFaulting = .next (oddFaulting.raise (.outOfBounds .fetchOdd 0x201)) := by rfl
/-- 20_memory.md R40's words: kind FETCH. -/
theorem test_oddFetch_fetch : step oddFaultingFetch = .next (oddFaultingFetch.raise (.outOfBounds .fetch 0x201)) := by rfl
theorem witness_OddFetchFollowsPolicy :
    (oddFaulting.status = .running ∧ oddFaulting.pc.toNat + 1 < 4096 ∧ 0x200 ≤ oddFaulting.pc.toNat ∧
      oddFaulting.pc.toNat % 2 = 1 ∧ oddFaulting.params.oddPcPolicy = .fault ∧
      oddFaulting.params.oddFaultKind = .fetchOdd) ∧
    (oddFaultingFetch.status = .running ∧ oddFaultingFetch.pc.toNat + 1 < 4096 ∧ 0x200 ≤ oddFaultingFetch.pc.toNat ∧
      oddFaultingFetch.pc.toNat % 2 = 1 ∧ oddFaultingFetch.params.oddPcPolicy = .fault ∧
      oddFaultingFetch.params.oddFaultKind = .fetch) ∧
    ((atPc 0x0FFD).status = .running ∧ (atPc 0x0FFD).pc.toNat + 1 < 4096 ∧ (atPc 0x0FFD).pc.toNat % 2 = 1 ∧
      (atPc 0x0FFD).params.oddPcPolicy = .fetch) := by decide
theorem witness_FaultedIsSticky :
    (s0.raise (.stackUnderflow 0x00EE)).status = .faulted (.stackUnderflow 0x00EE 0x0202) := by decide
theorem witness_RetPopsOrUnderflows :
    ({ s0 with sp := 1 }.sp.val = (0 : Fin 16).val + 1) ∧ ({ s0 with sp := 16 }.sp.val = (15 : Fin 16).val + 1) ∧ s0.sp.val = 0 := by
  decide
theorem witness_CallPushesOrOverflows :
    (0x2300#16 &&& 0xF000#16 = 0x2000#16) ∧ s0.sp.val = (0 : Fin 16).val ∧ { s0 with sp := 15 }.sp.val = (15 : Fin 16).val ∧
    { s0 with sp := 16 }.sp.val = 16 := by decide
theorem witness_CallThenRetReturns : { s0 with sp := 15 }.sp.val < 16 := by decide
theorem witness_JpJumps : 0x1FFF#16 &&& 0xF000#16 = 0x1000#16 := by decide
theorem witness_JpV0AddsV0 : 0xB300#16 &&& 0xF000#16 = 0xB000#16 := by decide
theorem witness_SeImmSkipsWhenEqual : 0x3342#16 &&& 0xF000#16 = 0x3000#16 := by decide
theorem witness_SneImmSkipsWhenDifferent : 0x4342#16 &&& 0xF000#16 = 0x4000#16 := by decide
theorem witness_SeRegSkipsWhenEqual : 0x5125#16 &&& 0xF000#16 = 0x5000#16 := by decide
theorem witness_SneRegSkipsWhenDifferent : 0x912F#16 &&& 0xF000#16 = 0x9000#16 := by decide
theorem witness_LdImmLoads : 0x6008#16 &&& 0xF000#16 = 0x6000#16 := by decide
theorem witness_AddImmWrapsWithoutFlag : 0x7001#16 &&& 0xF000#16 = 0x7000#16 := by decide
theorem witness_LdRegCopies : 0x8120#16 &&& 0xF00F#16 = 0x8000#16 := by decide
theorem witness_AddRegSumsWithCarry : 0x8014#16 &&& 0xF00F#16 = 0x8004#16 := by decide
theorem witness_SubSubtractsWithStrictFlag : 0x8125#16 &&& 0xF00F#16 = 0x8005#16 := by decide
theorem witness_ShrHalvesWithLowBit : 0x8056#16 &&& 0xF00F#16 = 0x8006#16 := by decide
theorem witness_SubnSubtractsReversed : 0x8127#16 &&& 0xF00F#16 = 0x8007#16 := by decide
theorem witness_LdILoadsAddress : 0xA123#16 &&& 0xF000#16 = 0xA000#16 := by decide
theorem witness_AddIWrapsAt16Bits : 0xF21E#16 &&& 0xF0FF#16 = 0xF01E#16 := by decide
theorem witness_RndMasksOneDraw : 0xC00F#16 &&& 0xF000#16 = 0xC000#16 := by decide
theorem witness_BitwiseOpsCombineBits : 0x8121#16 &&& 0xF00F#16 = 0x8001#16 ∧ 0x8122#16 &&& 0xF00F#16 = 0x8002#16 ∧
    0x8123#16 &&& 0xF00F#16 = 0x8003#16 := by decide
theorem witness_ShlDoublesWithSelectedBit : 0x800E#16 &&& 0xF00F#16 = 0x800E#16 ∧ s0.params.shlFlagSource = .msb ∧
    { s0 with params := { Params.default with shlFlagSource := .lsb } }.params.shlFlagSource = .lsb := by decide
/-- The two clauses of R83 for x = F, beside x other than F. -/
theorem witness_ResultAndFlagWritten : (0x1#4 ≠ regVF) ∧ s0.params.vfWriteOrder = .flagThenResult ∧
    (resultFirst s0).params.vfWriteOrder = .resultThenFlag := by decide
theorem witness_PlainAluKeepsVF : (0x0#4 ≠ regVF) ∧ (0xF#4 = regVF) ∧
    (Instr.ldImm 0xF 0x01, 0x01#8) ∈ [(Instr.ldImm 0xF 0x01, 0x01#8)] := by decide
theorem witness_WriteOrderMattersOnlyAtVF : (0xE#4 ≠ regVF) ∧ Instr.shl 0xE 0xF ∈ [Instr.shr 0xE 0xF, .shl 0xE 0xF] := by decide
theorem witness_LdBStoresDigits : 0xF333#16 &&& 0xF0FF#16 = 0xF033#16 ∧ (s0.setI 0xFFD).effAddr 2 < 4096 := by decide
theorem witness_LdMemIStoresRegisters : 0xFF55#16 &&& 0xF0FF#16 = 0xF055#16 ∧ (s0.setI 0xFF0).effAddr (0xF#4).toNat < 4096 := by
  decide
theorem witness_StoresPastEndWriteLowerBytes :
    (4096 ≤ (s0.setI 0xFFE).effAddr 2 ∧ (s0.setI 0xFFE).effAddr 1 < 4096) ∧
    (4096 ≤ (s0.setI 0x1000).effAddr 2 ∧ ¬ (s0.setI 0x1000).effAddr 0 < 4096) ∧
    (4096 ≤ (s0.setI 0xFFF).effAddr (0x1#4).toNat ∧ (s0.setI 0xFFF).effAddr (0x0#4).toNat < 4096) := by decide
theorem witness_StoredWordIsFetched : s0.status = .running ∧ 0x200 ≤ (s0.setI 0xFFE).I.toNat ∧ (s0.setI 0xFFE).I.toNat + 1 < 4096 ∧
    ((s0.setI 0xFFE).I.toNat % 2 = 1 → (s0.setI 0xFFE).params.oddPcPolicy = .fetch) := by decide
theorem witness_CheckedAccessesFollowBounds : (0x1FF < 0x200) ∧ (4096 ≤ 4096) ∧ (0x200 ≤ 0x200 ∧ 0xFFF < 4096) ∧
    s0.params.spriteReadLowerBound = true ∧
    { s0 with params := { Params.default with spriteReadLowerBound := false } }.params.spriteReadLowerBound = false := by decide
theorem witness_DrwXorsSpriteAndReportsCollision : 0xD01F#16 &&& 0xF000#16 = 0xD000#16 ∧ SpriteReadable (s0.setI 0xFF1) 0xF ∧
    SpriteReadable { s0.setI 0x000 with params := { Params.default with spriteReadLowerBound := false } } 0xF := by decide
theorem witness_DrwFailingReadChangesNothing :
    ((2 : Nat) < (0x3#4).toNat ∧ ¬ SpriteByteReadable (s0.setI 0xFFE).params ((s0.setI 0xFFE).effAddr 2) ∧
      ∀ k : Nat, k < 2 → SpriteByteReadable (s0.setI 0xFFE).params ((s0.setI 0xFFE).effAddr k)) ∧
    ((0 : Nat) < (0x2#4).toNat ∧ ¬ SpriteByteReadable (s0.setI 0x1FF).params ((s0.setI 0x1FF).effAddr 0)) := by decide
theorem witness_DrawingTwiceRestoresPixels : SpriteReadable (s0.setI 0x300) 0x1 ∧
    (∃ t, exec (.drw 0x0 0x1 0x1) (s0.setI 0x300) = .next t ∧ t.readV 0x0 = (s0.setI 0x300).readV 0x0 ∧
      t.readV 0x1 = (s0.setI 0x300).readV 0x1) ∧
    (∀ px py, spriteBitAt (s0.setI 0x300) 0x0 0x1 0x1 px py = true → (s0.setI 0x300).fb.pixel px py = false) :=
  ⟨by decide, ⟨_, rfl, by decide, by decide⟩, fun px py _ => pixel_clear px py⟩
/-- A step from reset that answers a next state, for the statements about every step. -/
theorem witness_stepsAnswer : ∃ t, step State.reset = .next t := ⟨_, rfl⟩
theorem witness_StepsKeepTimersKeysParams : ∃ t, step { State.reset with dt := 3, st := 1 } = .next t := ⟨_, rfl⟩
theorem witness_MarkRecordsEveryUnimplemented : ∃ t, step State.reset = .next t ∧ t.outcome = .unimplemented 0x0000 :=
  ⟨_, rfl, by decide⟩
theorem witness_OnlyClsAndDrwUseFramebuffer : ∃ t, exec (.ldImm 0x1 0x05) s0 = .next t ∧ Instr.ldImm 0x1 0x05 ≠ .cls ∧
    ∀ x y n, Instr.ldImm 0x1 0x05 ≠ .drw x y n := ⟨_, rfl, by decide, fun x y n h => by cases h⟩
theorem witness_OnlyStoresWriteMemory : ∃ t, exec .ret s0 = .next t ∧ (∀ x, Instr.ret ≠ .ldB x) ∧ ∀ x, Instr.ret ≠ .ldMemI x := by
  obtain ⟨t, h⟩ := exec_next .ret s0
  exact ⟨t, h, by simp, by simp⟩
theorem witness_OnlyCallAndRetTouchStack : ∃ t, exec .cls s0 = .next t ∧ (∀ nnn, Instr.cls ≠ .call nnn) ∧ Instr.cls ≠ .ret := by
  obtain ⟨t, h⟩ := exec_next .cls s0
  exact ⟨t, h, by simp, by simp⟩
theorem witness_StepReturnsTabulatedOutcome : State.reset.status = .running := by decide
theorem witness_RunReturnsOnlyFinalOutcomes : (runFuel 1 (atPc 0x0FFF)).isSome = true := by decide
theorem witness_EveryStepKeepsInvariant : StateInv (atPc 0x0FFE) ∧ ∃ t, step (atPc 0x0FFE) = .next t :=
  ⟨⟨rfl, by decide, by decide⟩, _, rfl⟩
theorem witness_HostOperationsKeepInvariant : StateInv (atPc 0x10FE) := ⟨rfl, by decide, by decide⟩
theorem witness_LoadCopiesImage : (0 : Nat) < [0x12#8, 0x34#8].length ∧ (0 : Nat) < 3584 ∧ 0x200 + [0x12#8, 0x34#8].length ≤ 0x202 := by
  decide
theorem witness_HostResetGivesTabledValues : Config.glyphBase.val < Config.glyphBase.val + 1 ∧
    Config.glyphBase.val + 80 ≤ Config.glyphBase.val + 80 := by omega

/-! ## Assembler syntax (30_encoding.md R61) -/

/-- 95_test_vectors.md section 2.1: 5125 is SE V1, V2 with n ignored. -/
theorem test_disassemble_se : disassemble (decode 0x5125#16) = "SE V1, V2" := by decide
theorem test_disassemble_unimpl : disassemble (decode 0xE19E#16) = "UNIMPL 0xE19E" := by decide
theorem test_assemble_shr : encode (asmShr 0x1 none) = 0x8106#16 := by decide

end Sys2Proof.Tests
end

section
/-! PROOF. Don't-care bits (spec/30_encoding.md R58): two words that agree under a mask agree in every field the mask covers, and each row with ignored bits executes from the fields that are left. -/

namespace Sys2Proof

/-- Words equal under a mask have equal bits wherever the mask is all ones. -/
theorem extractLsb'_eq_of_and_eq {w u m : Word} {start len : Nat} (hm : m.extractLsb' start len = BitVec.allOnes len)
    (h : w &&& m = u &&& m) : w.extractLsb' start len = u.extractLsb' start len := by
  simpa only [BitVec.extractLsb'_and, hm, BitVec.and_allOnes] using congrArg (BitVec.extractLsb' start len) h

/-- The mask FFF0 covers the class, x and y. -/
theorem class_x_y_eq_of_mask {w u : Word} (h : w &&& 0xFFF0#16 = u &&& 0xFFF0#16) :
    fieldClass w = fieldClass u ∧ fieldX w = fieldX u ∧ fieldY w = fieldY u :=
  ⟨extractLsb'_eq_of_and_eq (by decide) h, extractLsb'_eq_of_and_eq (by decide) h,
    extractLsb'_eq_of_and_eq (by decide) h⟩

/-- The mask FF0F covers the class, x and n. -/
theorem class_x_n_eq_of_mask {w u : Word} (h : w &&& 0xFF0F#16 = u &&& 0xFF0F#16) :
    fieldClass w = fieldClass u ∧ fieldX w = fieldX u ∧ fieldN w = fieldN u :=
  ⟨extractLsb'_eq_of_and_eq (by decide) h, extractLsb'_eq_of_and_eq (by decide) h,
    extractLsb'_eq_of_and_eq (by decide) h⟩

/-- A word is determined by its class, x and kk (R51). -/
theorem word_eq_of_class_x_kk {w u : Word} (hc : fieldClass w = fieldClass u) (hx : fieldX w = fieldX u)
    (hk : fieldKK w = fieldKK u) : w = u := by
  rw [← class_x_kk_eq w, hc, hx, hk, class_x_kk_eq]

/-! ## The rows with ignored bits, by the fields that select them (R55) -/

theorem decode_of_class5 {w : Word} (hc : fieldClass w = 0x5#4) : decode w = .seReg (fieldX w) (fieldY w) (fieldN w) := by
  simp [decode, hc]

theorem decode_of_class9 {w : Word} (hc : fieldClass w = 0x9#4) : decode w = .sneReg (fieldX w) (fieldY w) (fieldN w) := by
  simp [decode, hc]

theorem decode_of_class8_n6 {w : Word} (hc : fieldClass w = 0x8#4) (hn : fieldN w = 0x6#4) :
    decode w = .shr (fieldX w) (fieldY w) := by
  simp [decode, decodeClass8, hc, hn]

theorem decode_of_class8_nE {w : Word} (hc : fieldClass w = 0x8#4) (hn : fieldN w = 0xE#4) :
    decode w = .shl (fieldX w) (fieldY w) := by
  simp [decode, decodeClass8, hc, hn]

end Sys2Proof

namespace Sys2Proof.Machine

theorem exec_seReg (x y : Reg) (n : Nibble) (s : State) : exec (.seReg x y n) s = execSeReg x y s := rfl
theorem exec_sneReg (x y : Reg) (n : Nibble) (s : State) : exec (.sneReg x y n) s = execSneReg x y s := rfl
theorem exec_shr (x y : Reg) (s : State) : exec (.shr x y) s = execShr x s := rfl
theorem exec_shl (x y : Reg) (s : State) : exec (.shl x y) s = execShl x s := rfl

/-- The low nibble of a class 5 or class 9 word selects nothing (R58, first item). -/
theorem exec_decode_ignores_n {w u : Word} (s : State) (hrow : w &&& 0xF000#16 = 0x5000#16 ∨ w &&& 0xF000#16 = 0x9000#16)
    (h : w &&& 0xFFF0#16 = u &&& 0xFFF0#16) : exec (decode w) s = exec (decode u) s := by
  obtain ⟨hclass, hx, hy⟩ := class_x_y_eq_of_mask h
  rcases hrow with hrow | hrow
  · have hc : fieldClass w = 0x5#4 := class_of_mask w 0x5#4 hrow
    rw [decode_of_class5 hc, decode_of_class5 (hclass ▸ hc), exec_seReg, exec_seReg, hx, hy]
  · have hc : fieldClass w = 0x9#4 := class_of_mask w 0x9#4 hrow
    rw [decode_of_class9 hc, decode_of_class9 (hclass ▸ hc), exec_sneReg, exec_sneReg, hx, hy]

/-- y of an 8xy6 or 8xyE word selects nothing (R58, second item). -/
theorem exec_decode_shift_ignores_y {w u : Word} (s : State)
    (hrow : w &&& 0xF00F#16 = 0x8006#16 ∨ w &&& 0xF00F#16 = 0x800E#16)
    (h : w &&& 0xFF0F#16 = u &&& 0xFF0F#16) : exec (decode w) s = exec (decode u) s := by
  obtain ⟨hclass, hx, hn⟩ := class_x_n_eq_of_mask h
  rcases hrow with hrow | hrow
  · obtain ⟨hc, hw⟩ := class_n_of_mask w 0x8#4 0x6#4 hrow
    rw [decode_of_class8_n6 hc hw, decode_of_class8_n6 (hclass ▸ hc) (hn ▸ hw), exec_shr, exec_shr, hx]
  · obtain ⟨hc, hw⟩ := class_n_of_mask w 0x8#4 0xE#4 hrow
    rw [decode_of_class8_nE hc hw, decode_of_class8_nE (hclass ▸ hc) (hn ▸ hw), exec_shl, exec_shl, hx]

/-- Settles O5: the fields outside the ignored bits select the row, and the row's meaning reads only those. -/
theorem ignoredBitsDoNotMatter : Obligations.IgnoredBitsDoNotMatter :=
  ⟨fun _ _ s hrow h => exec_decode_ignores_n s hrow h, fun _ _ s hrow h => exec_decode_shift_ignores_y s hrow h,
    fun _ _ _ hx hc hk => congrArg decode (word_eq_of_class_x_kk hc hx hk)⟩

end Sys2Proof.Machine
end

section
/-! PROOF. The jumps JP and JP V0 (spec/41_control_flow.md R74, R76): the row each class selects, the exact value of each zero-extended operand, and the target of each jump. -/

namespace Sys2Proof

theorem decode_of_class1 {w : Word} (hc : fieldClass w = 0x1#4) : decode w = .jp (fieldNNN w) := by
  simp [decode, hc]

theorem decode_of_classB {w : Word} (hc : fieldClass w = 0xB#4) : decode w = .jpV0 (fieldNNN w) := by
  simp [decode, hc]

end Sys2Proof

namespace Sys2Proof.Machine

theorem exec_jp (nnn : Addr) (s : State) : exec (.jp nnn) s = .next (s.setPc (addrOperand nnn)) := rfl

theorem exec_jpV0 (nnn : Addr) (s : State) :
    exec (.jpV0 nnn) s = .next (s.setPc (zextByte (s.readV 0x0#4) + addrOperand nnn)) := rfl

/-! ## Zero-extended operands keep their value (R53) -/

@[simp] theorem toNat_addrOperand (nnn : Addr) : (addrOperand nnn).toNat = nnn.toNat :=
  BitVec.toNat_setWidth_of_le (by decide)

@[simp] theorem toNat_zextByte (b : Byte) : (zextByte b).toNat = b.toNat :=
  BitVec.toNat_setWidth_of_le (by decide)

/-- A byte and an address sum to at most 0xFF + 0xFFF. -/
theorem byte_add_addr_le (b : Byte) (nnn : Addr) : b.toNat + nnn.toNat ≤ 0x10FE := by
  have hb : b.toNat < 256 := b.isLt
  have hn : nnn.toNat < 4096 := nnn.isLt
  omega

/-- The target of JP V0 does not wrap: the bound on the sum lies below 2^16. -/
theorem toNat_zextByte_add_addrOperand (b : Byte) (nnn : Addr) :
    (zextByte b + addrOperand nnn).toNat = b.toNat + nnn.toNat := by
  have hle := byte_add_addr_le b nnn
  rw [BitVec.toNat_add, toNat_zextByte, toNat_addrOperand]
  exact Nat.mod_eq_of_lt (by omega)

/-- Settles O14: the class selects JP, whose target is its zero-extended operand. -/
theorem jpJumps : Obligations.JpJumps :=
  ⟨fun w h => decode_of_class1 (class_of_mask w 0x1#4 h),
    fun nnn s => ⟨_, exec_jp nnn s, toNat_addrOperand nnn, keepsAllBut_setPc s _⟩⟩

/-- Settles O16: the class selects JP V0, and the sum of a byte and an address fits in 16 bits. -/
theorem jpV0AddsV0 : Obligations.JpV0AddsV0 := by
  refine ⟨fun w h => decode_of_classB (class_of_mask w 0xB#4 h), fun nnn s => ?_⟩
  have hpc := toNat_zextByte_add_addrOperand (s.readV 0x0#4) nnn
  exact ⟨_, exec_jpV0 nnn s, hpc, hpc.trans_le (byte_add_addr_le _ _), keepsAllBut_setPc s _⟩

end Sys2Proof.Machine
end

section
/-! PROOF. The conditional skips SE and SNE (spec/42_skips.md R78 to R82): the row classes 3 and 4 select, and where a skip leaves pc when its condition is that two bytes are equal, or that they differ. -/

namespace Sys2Proof

theorem decode_of_class3 {w : Word} (hc : fieldClass w = 0x3#4) : decode w = .seImm (fieldX w) (fieldKK w) := by
  simp [decode, hc]

theorem decode_of_class4 {w : Word} (hc : fieldClass w = 0x4#4) : decode w = .sneImm (fieldX w) (fieldKK w) := by
  simp [decode, hc]

end Sys2Proof

namespace Sys2Proof.Machine

theorem exec_seImm (x : Reg) (kk : Byte) (s : State) :
    exec (.seImm x kk) s = .next (s.skipIf (s.readV x == kk)) := rfl

theorem exec_sneImm (x : Reg) (kk : Byte) (s : State) :
    exec (.sneImm x kk) s = .next (s.skipIf (s.readV x != kk)) := rfl

theorem execSeReg_eq (x y : Reg) (s : State) : execSeReg x y s = .next (s.skipIf (s.readV x == s.readV y)) := rfl

theorem execSneReg_eq (x y : Reg) (s : State) : execSneReg x y s = .next (s.skipIf (s.readV x != s.readV y)) := rfl

/-! ## Where a skip leaves pc (R78) -/

@[simp] theorem skipIf_true (s : State) : s.skipIf true = s.setPc (s.pc + 2#16) := rfl

@[simp] theorem skipIf_false (s : State) : s.skipIf false = s := rfl

theorem skipIf_beq_pc (s : State) (a b : Byte) : (s.skipIf (a == b)).pc = if a = b then s.pc + 2#16 else s.pc := by
  by_cases h : a = b
  · simp [h]
  · simp [h, beq_false_of_ne h]

theorem skipIf_bne_pc (s : State) (a b : Byte) : (s.skipIf (a != b)).pc = if a = b then s.pc else s.pc + 2#16 := by
  by_cases h : a = b
  · simp [h]
  · simp [h, bne_iff_ne.mpr h]

/-- Settles O18: class 3 selects SE Vx, byte, which skips on equality. -/
theorem seImmSkipsWhenEqual : Obligations.SeImmSkipsWhenEqual :=
  ⟨fun w h => decode_of_class3 (class_of_mask w 0x3#4 h),
    fun x kk s => ⟨_, exec_seImm x kk s, skipIf_beq_pc s _ _, keepsAllBut_skipIf s _⟩⟩

/-- Settles O19: class 4 selects SNE Vx, byte, which skips on inequality. -/
theorem sneImmSkipsWhenDifferent : Obligations.SneImmSkipsWhenDifferent :=
  ⟨fun w h => decode_of_class4 (class_of_mask w 0x4#4 h),
    fun x kk s => ⟨_, exec_sneImm x kk s, skipIf_bne_pc s _ _, keepsAllBut_skipIf s _⟩⟩

/-- Settles O20: class 5 selects SE Vx, Vy at every low nibble, which its meaning does not read. -/
theorem seRegSkipsWhenEqual : Obligations.SeRegSkipsWhenEqual :=
  ⟨fun w h => decode_of_class5 (class_of_mask w 0x5#4 h),
    fun x y n s => ⟨_, (exec_seReg x y n s).trans (execSeReg_eq x y s), skipIf_beq_pc s _ _, keepsAllBut_skipIf s _⟩⟩

/-- Settles O21: class 9 selects SNE Vx, Vy at every low nibble, which its meaning does not read. -/
theorem sneRegSkipsWhenDifferent : Obligations.SneRegSkipsWhenDifferent :=
  ⟨fun w h => decode_of_class9 (class_of_mask w 0x9#4 h),
    fun x y n s => ⟨_, (exec_sneReg x y n s).trans (execSneReg_eq x y s), skipIf_bne_pc s _ _, keepsAllBut_skipIf s _⟩⟩

end Sys2Proof.Machine
end

section
/-! PROOF. The register loads and the ALU instructions without a flag (spec/43_alu.md R84 to R89, R96): the row each word selects, and the consequences of each being one register write. -/

namespace Sys2Proof

theorem decode_of_class6 {w : Word} (hc : fieldClass w = 0x6#4) : decode w = .ldImm (fieldX w) (fieldKK w) := by
  simp [decode, hc]

theorem decode_of_class7 {w : Word} (hc : fieldClass w = 0x7#4) : decode w = .addImm (fieldX w) (fieldKK w) := by
  simp [decode, hc]

/-- The class 8 second level reads n alone (R55). -/
theorem decode_of_class8 {w : Word} (hc : fieldClass w = 0x8#4) : decode w = decodeClass8 w := by
  simp [decode, hc]

theorem decodeClass8_of_n0 {w : Word} (hn : fieldN w = 0x0#4) : decodeClass8 w = .ldReg (fieldX w) (fieldY w) := by
  simp [decodeClass8, hn]

theorem decodeClass8_of_n1 {w : Word} (hn : fieldN w = 0x1#4) : decodeClass8 w = .orReg (fieldX w) (fieldY w) := by
  simp [decodeClass8, hn]

theorem decodeClass8_of_n2 {w : Word} (hn : fieldN w = 0x2#4) : decodeClass8 w = .andReg (fieldX w) (fieldY w) := by
  simp [decodeClass8, hn]

theorem decodeClass8_of_n3 {w : Word} (hn : fieldN w = 0x3#4) : decodeClass8 w = .xorReg (fieldX w) (fieldY w) := by
  simp [decodeClass8, hn]

/-- A word under the mask F00F with class 8 and low nibble `n` decodes as the second level says of `n`. -/
theorem decode_of_mask8 {w : Word} {n : Nibble} {i : Instr} (hrow : fieldN w = n → decodeClass8 w = i)
    (h : w &&& 0xF00F#16 = 0x8#4 ++ 0x0#4 ++ 0x0#4 ++ n) : decode w = i := by
  obtain ⟨hc, hn⟩ := class_n_of_mask w 0x8#4 n h
  exact (decode_of_class8 hc).trans (hrow hn)

end Sys2Proof

namespace Sys2Proof.Machine

theorem exec_ldImm (x : Reg) (kk : Byte) (s : State) : exec (.ldImm x kk) s = .next (s.writeV x kk) := rfl

theorem exec_addImm (x : Reg) (kk : Byte) (s : State) :
    exec (.addImm x kk) s = .next (s.writeV x (s.readV x + kk)) := rfl

theorem exec_ldReg (x y : Reg) (s : State) : exec (.ldReg x y) s = .next (s.writeV x (s.readV y)) := rfl

theorem exec_orReg (x y : Reg) (s : State) :
    exec (.orReg x y) s = .next (s.writeV x (s.readV x ||| s.readV y)) := rfl

theorem exec_andReg (x y : Reg) (s : State) :
    exec (.andReg x y) s = .next (s.writeV x (s.readV x &&& s.readV y)) := rfl

theorem exec_xorReg (x y : Reg) (s : State) :
    exec (.xorReg x y) s = .next (s.writeV x (s.readV x ^^^ s.readV y)) := rfl

/-! ## An instruction whose whole effect is one register write -/

section OneWrite

variable {i : Instr} {s : State} {x : Reg} {b : Byte}

/-- The destination holds the written byte, and nothing else changes. -/
theorem dest_and_frame_of_exec_writeV (h : exec i s = .next (s.writeV x b)) :
    ∃ t, exec i s = .next t ∧ t.readV x = b ∧ RegsKeptBut [x] s t ∧ KeepsAllBut [.v] s t :=
  ⟨_, h, readV_writeV_self s x b, regsKeptBut_writeV s x b, keepsAllBut_writeV s x b⟩

/-- If every bit of the written byte is as `f` says, so is every bit of the destination. -/
theorem bits_and_frame_of_exec_writeV {f : Nat → Bool} (h : exec i s = .next (s.writeV x b))
    (hbits : ∀ k : Nat, b.getLsbD k = f k) :
    ∃ t, exec i s = .next t ∧ (∀ k : Nat, (t.readV x).getLsbD k = f k) ∧ RegsKeptBut [x] s t ∧ KeepsAllBut [.v] s t := by
  obtain ⟨t, ht, rfl, hframe⟩ := dest_and_frame_of_exec_writeV h
  exact ⟨t, ht, hbits, hframe⟩

/-- VF is kept unless it is the destination (R96). -/
theorem vf_of_exec_writeV (h : exec i s = .next (s.writeV x b)) :
    ∃ t, exec i s = .next t ∧ (x ≠ regVF → t.readV regVF = s.readV regVF) ∧ (x = regVF → t.readV regVF = b) := by
  refine ⟨_, h, fun hx => readV_writeV_of_ne s b hx, ?_⟩
  rintro rfl
  exact readV_writeV_self s regVF b

end OneWrite

/-- Settles O22: class 6 selects LD Vx, byte, which writes kk to its destination. -/
theorem ldImmLoads : Obligations.LdImmLoads :=
  ⟨fun w h => decode_of_class6 (class_of_mask w 0x6#4 h),
    fun x kk s => dest_and_frame_of_exec_writeV (exec_ldImm x kk s)⟩

/-- Settles O23: class 7 selects ADD Vx, byte, whose 8-bit sum is the exact sum modulo 256. -/
theorem addImmWrapsWithoutFlag : Obligations.AddImmWrapsWithoutFlag := by
  refine ⟨fun w h => decode_of_class7 (class_of_mask w 0x7#4 h), fun x kk s => ?_⟩
  obtain ⟨t, ht, hx, hframe⟩ := dest_and_frame_of_exec_writeV (exec_addImm x kk s)
  exact ⟨t, ht, hx ▸ BitVec.toNat_add (s.readV x) kk, hframe⟩

/-- Settles O24: class 8 with n = 0 selects LD Vx, Vy, which writes V[y] to its destination. -/
theorem ldRegCopies : Obligations.LdRegCopies :=
  ⟨fun _ h => decode_of_mask8 decodeClass8_of_n0 h,
    fun x y s => dest_and_frame_of_exec_writeV (exec_ldReg x y s)⟩

/-- Settles O25: class 8 with n = 1, 2 and 3 selects OR, AND and XOR, each of which acts on every bit by itself. -/
theorem bitwiseOpsCombineBits : Obligations.BitwiseOpsCombineBits :=
  ⟨fun _ h => decode_of_mask8 decodeClass8_of_n1 h,
    fun _ h => decode_of_mask8 decodeClass8_of_n2 h,
    fun _ h => decode_of_mask8 decodeClass8_of_n3 h,
    fun x y s => bits_and_frame_of_exec_writeV (exec_orReg x y s) fun _ => BitVec.getLsbD_or,
    fun x y s => bits_and_frame_of_exec_writeV (exec_andReg x y s) fun _ => BitVec.getLsbD_and,
    fun x y s => bits_and_frame_of_exec_writeV (exec_xorReg x y s) fun _ => BitVec.getLsbD_xor⟩

/-- Settles O31: each of the six instructions is one write of its listed result to V[x]. -/
theorem plainAluKeepsVF : Obligations.PlainAluKeepsVF := by
  intro x y kk s
  simp only [List.forall_mem_cons]
  exact ⟨vf_of_exec_writeV (exec_ldImm x kk s), vf_of_exec_writeV (exec_addImm x kk s),
    vf_of_exec_writeV (exec_ldReg x y s), vf_of_exec_writeV (exec_orReg x y s),
    vf_of_exec_writeV (exec_andReg x y s), vf_of_exec_writeV (exec_xorReg x y s), List.forall_mem_nil _⟩

end Sys2Proof.Machine
end

section
/-! PROOF. The address load LD I, addr (spec/44_address_memory.md R97): the row class A selects, and the register write that is the whole effect. -/

namespace Sys2Proof

theorem decode_of_classA {w : Word} (hc : fieldClass w = 0xA#4) : decode w = .ldI (fieldNNN w) := by
  simp [decode, hc]

end Sys2Proof

namespace Sys2Proof.Machine

theorem exec_ldI (nnn : Addr) (s : State) : exec (.ldI nnn) s = .next (s.setI (addrOperand nnn)) := rfl

/-- Settles O33: the class selects LD I, addr, which writes its zero-extended operand to I. -/
theorem ldILoadsAddress : Obligations.LdILoadsAddress :=
  ⟨fun w h => decode_of_classA (class_of_mask w 0xA#4 h),
    fun nnn s => ⟨_, exec_ldI nnn s, toNat_addrOperand nnn, keepsAllBut_setI s _⟩⟩

end Sys2Proof.Machine
end

section
/-! PROOF. CLS (spec/46_display.md R105): the word of class 0 that selects it, and the framebuffer write that is the whole effect. -/

namespace Sys2Proof

theorem decode_of_class0 {w : Word} (hc : fieldClass w = 0x0#4) : decode w = decodeClass0 w := by
  simp [decode, hc]

theorem decodeClass0_00E0 : decodeClass0 0x00E0#16 = .cls := if_pos rfl

end Sys2Proof

namespace Sys2Proof.Machine

theorem exec_cls (s : State) : exec .cls s = .next (s.setFb Framebuffer.clear) := rfl

/-- Settles O41: 00E0 selects CLS, whose whole effect is to replace the framebuffer by the clear one. -/
theorem clsTurnsEveryPixelOff : Obligations.ClsTurnsEveryPixelOff :=
  ⟨(decode_of_class0 (by decide)).trans decodeClass0_00E0,
    fun s => ⟨_, exec_cls s, pixel_clear, keepsAllBut_setFb s _⟩⟩

end Sys2Proof.Machine
end

section
/-! PROOF. The encoding (spec/30_encoding.md R54 to R57, R62): the row each class and second level select, that decoding and encoding are inverse, and which words select no row. -/

namespace Sys2Proof

/-! ## The rows that other parts do not state, by the fields that select them (R55) -/

theorem decode_of_class2 {w : Word} (hc : fieldClass w = 0x2#4) : decode w = .call (fieldNNN w) := by
  simp [decode, hc]

theorem decode_of_classC {w : Word} (hc : fieldClass w = 0xC#4) : decode w = .rnd (fieldX w) (fieldKK w) := by
  simp [decode, hc]

theorem decode_of_classD {w : Word} (hc : fieldClass w = 0xD#4) : decode w = .drw (fieldX w) (fieldY w) (fieldN w) := by
  simp [decode, hc]

theorem decode_of_classE {w : Word} (hc : fieldClass w = 0xE#4) : decode w = .unimplKey (fieldNNN w) := by
  simp [decode, hc]

theorem decode_of_classF {w : Word} (hc : fieldClass w = 0xF#4) : decode w = decodeClassF w := by
  simp [decode, hc]

theorem decodeClass8_of_n4 {w : Word} (hn : fieldN w = 0x4#4) : decodeClass8 w = .addReg (fieldX w) (fieldY w) := by
  simp [decodeClass8, hn]

theorem decodeClass8_of_n5 {w : Word} (hn : fieldN w = 0x5#4) : decodeClass8 w = .sub (fieldX w) (fieldY w) := by
  simp [decodeClass8, hn]

theorem decodeClass8_of_n6 {w : Word} (hn : fieldN w = 0x6#4) : decodeClass8 w = .shr (fieldX w) (fieldY w) := by
  simp [decodeClass8, hn]

theorem decodeClass8_of_n7 {w : Word} (hn : fieldN w = 0x7#4) : decodeClass8 w = .subn (fieldX w) (fieldY w) := by
  simp [decodeClass8, hn]

theorem decodeClass8_of_nE {w : Word} (hn : fieldN w = 0xE#4) : decodeClass8 w = .shl (fieldX w) (fieldY w) := by
  simp [decodeClass8, hn]

theorem decodeClassF_of_kk1E {w : Word} (hk : fieldKK w = 0x1E#8) : decodeClassF w = .addI (fieldX w) := by
  simp [decodeClassF, hk]

theorem decodeClassF_of_kk29 {w : Word} (hk : fieldKK w = 0x29#8) : decodeClassF w = .unimplGlyph (fieldX w) := by
  simp [decodeClassF, hk]

theorem decodeClassF_of_kk33 {w : Word} (hk : fieldKK w = 0x33#8) : decodeClassF w = .ldB (fieldX w) := by
  simp [decodeClassF, hk]

theorem decodeClassF_of_kk55 {w : Word} (hk : fieldKK w = 0x55#8) : decodeClassF w = .ldMemI (fieldX w) := by
  simp [decodeClassF, hk]

/-- A word under the mask F0FF with class F and low byte `kk` decodes as the second level says of `kk`. -/
theorem decode_of_maskF {w : Word} {kk : Byte} {i : Instr} (hrow : fieldKK w = kk → decodeClassF w = i)
    (h : w &&& 0xF0FF#16 = 0xF#4 ++ 0x0#4 ++ kk) : decode w = i := by
  obtain ⟨hc, hk⟩ := class_kk_of_mask w 0xF#4 kk h
  exact (decode_of_classF hc).trans (hrow hk)

/-! ## The words outside every second-level row -/

theorem nibble_cases (c : Nibble) :
    c = 0x0#4 ∨ c = 0x1#4 ∨ c = 0x2#4 ∨ c = 0x3#4 ∨ c = 0x4#4 ∨ c = 0x5#4 ∨ c = 0x6#4 ∨ c = 0x7#4 ∨ c = 0x8#4 ∨
    c = 0x9#4 ∨ c = 0xA#4 ∨ c = 0xB#4 ∨ c = 0xC#4 ∨ c = 0xD#4 ∨ c = 0xE#4 ∨ c = 0xF#4 := by
  revert c; decide

/-- The second-level values of class 8 that R56 gives no row. -/
abbrev otherAluNibbles : List Nibble := [0x8#4, 0x9#4, 0xA#4, 0xB#4, 0xC#4, 0xD#4, 0xF#4]

/-- The second-level values of class F that the opcode table gives a row. -/
abbrev classFRows : List Byte := [0x1E#8, 0x29#8, 0x33#8, 0x55#8]

/-- A word of the catch-all row by its fields (R57): no other row, named or not, takes it. -/
def InCatchAllRow (w : Word) : Prop :=
  (fieldClass w = 0x0#4 ∧ w ≠ 0x00E0#16 ∧ w ≠ 0x00EE#16) ∨
  (fieldClass w = 0x8#4 ∧ fieldN w ∈ otherAluNibbles) ∨
  (fieldClass w = 0xF#4 ∧ fieldKK w ∉ classFRows)

theorem decodeClass0_of_other {w : Word} (h : w ≠ 0x00E0#16 ∧ w ≠ 0x00EE#16) : decodeClass0 w = .unimpl w := by
  rw [decodeClass0, if_neg h.1, if_neg h.2]

theorem decodeClass8_of_other {w : Word} (h : fieldN w ∈ otherAluNibbles) : decodeClass8 w = .unimpl w := by
  simp only [otherAluNibbles, List.mem_cons, List.not_mem_nil, or_false] at h
  rcases h with h | h | h | h | h | h | h <;> simp [decodeClass8, h]

theorem decodeClassF_of_other {w : Word} (h : fieldKK w ∉ classFRows) : decodeClassF w = .unimpl w := by
  simp only [classFRows, List.mem_cons, List.not_mem_nil, or_false, not_or] at h
  obtain ⟨h1E, h29, h33, h55⟩ := h
  simp only [decodeClassF]

theorem decode_of_catchAll {w : Word} (h : InCatchAllRow w) : decode w = .unimpl w := by
  rcases h with ⟨hc, h⟩ | ⟨hc, h⟩ | ⟨hc, h⟩
  · exact (decode_of_class0 hc).trans (decodeClass0_of_other h)
  · exact (decode_of_class8 hc).trans (decodeClass8_of_other h)
  · exact (decode_of_classF hc).trans (decodeClassF_of_other h)

/-! ## Every word is the word of what it decodes to (R54) -/

theorem nnn_of_class {w : Word} {c : Nibble} (hc : fieldClass w = c) : c ++ fieldNNN w = w :=
  hc ▸ class_nnn_eq w

theorem xkk_of_class {w : Word} {c : Nibble} (hc : fieldClass w = c) : c ++ fieldX w ++ fieldKK w = w :=
  hc ▸ class_x_kk_eq w

theorem xyn_of_class {w : Word} {c : Nibble} (hc : fieldClass w = c) : c ++ fieldX w ++ fieldY w ++ fieldN w = w :=
  hc ▸ class_x_y_n_eq w

theorem xyn_of_class_n {w : Word} {c n : Nibble} (hc : fieldClass w = c) (hn : fieldN w = n) :
    c ++ fieldX w ++ fieldY w ++ n = w :=
  hn ▸ xyn_of_class hc

theorem xkk_of_class_kk {w : Word} {c : Nibble} {kk : Byte} (hc : fieldClass w = c) (hk : fieldKK w = kk) :
    c ++ fieldX w ++ kk = w :=
  hk ▸ xkk_of_class hc

/-- The word decodes to a row of its own and re-encodes to itself. -/
def DecodesToRow (w : Word) : Prop := encode (decode w) = w ∧ ∀ u, decode w ≠ .unimpl u

theorem decodesToRow_of_eq {w : Word} {i : Instr} (hd : decode w = i) (he : encode i = w) (hi : ∀ u, i ≠ .unimpl u) :
    DecodesToRow w := by
  subst hd
  exact ⟨he, hi⟩

theorem class0_cases {w : Word} (hc : fieldClass w = 0x0#4) : InCatchAllRow w ∨ DecodesToRow w := by
  by_cases hE0 : w = 0x00E0#16
  · subst hE0; exact .inr ⟨rfl, nofun⟩
  by_cases hEE : w = 0x00EE#16
  · subst hEE; exact .inr ⟨rfl, nofun⟩
  exact .inl (.inl ⟨hc, hE0, hEE⟩)

theorem class8_cases {w : Word} (hc : fieldClass w = 0x8#4) : InCatchAllRow w ∨ DecodesToRow w := by
  have row {n i} (hn : fieldN w = n) (hrow : decodeClass8 w = i) (he : encode i = 0x8#4 ++ fieldX w ++ fieldY w ++ n)
      (hi : ∀ u, i ≠ .unimpl u) : DecodesToRow w :=
    decodesToRow_of_eq ((decode_of_class8 hc).trans hrow) (he.trans (xyn_of_class_n hc hn)) hi
  have split : ∀ n : Nibble, n ∈ otherAluNibbles ∨ n = 0x0#4 ∨ n = 0x1#4 ∨ n = 0x2#4 ∨ n = 0x3#4 ∨ n = 0x4#4 ∨
    n = 0x5#4 ∨ n = 0x6#4 ∨ n = 0x7#4 ∨ n = 0xE#4 := by decide
  rcases split (fieldN w) with hn | hn | hn | hn | hn | hn | hn | hn | hn | hn
  · exact .inl (.inr (.inl ⟨hc, hn⟩))
  · exact .inr (row hn (decodeClass8_of_n0 hn) rfl nofun)
  · exact .inr (row hn (decodeClass8_of_n1 hn) rfl nofun)
  · exact .inr (row hn (decodeClass8_of_n2 hn) rfl nofun)
  · exact .inr (row hn (decodeClass8_of_n3 hn) rfl nofun)
  · exact .inr (row hn (decodeClass8_of_n4 hn) rfl nofun)
  · exact .inr (row hn (decodeClass8_of_n5 hn) rfl nofun)
  · exact .inr (row hn (decodeClass8_of_n6 hn) rfl nofun)
  · exact .inr (row hn (decodeClass8_of_n7 hn) rfl nofun)
  · exact .inr (row hn (decodeClass8_of_nE hn) rfl nofun)

theorem classF_cases {w : Word} (hc : fieldClass w = 0xF#4) : InCatchAllRow w ∨ DecodesToRow w := by
  have row {kk i} (hk : fieldKK w = kk) (hrow : decodeClassF w = i) (he : encode i = 0xF#4 ++ fieldX w ++ kk)
      (hi : ∀ u, i ≠ .unimpl u) : DecodesToRow w :=
    decodesToRow_of_eq ((decode_of_classF hc).trans hrow) (he.trans (xkk_of_class_kk hc hk)) hi
  by_cases hk : fieldKK w ∈ classFRows
  · simp only [classFRows, List.mem_cons, List.not_mem_nil, or_false] at hk
    rcases hk with hk | hk | hk | hk
    · exact .inr (row hk (decodeClassF_of_kk1E hk) rfl nofun)
    · exact .inr (row hk (decodeClassF_of_kk29 hk) rfl nofun)
    · exact .inr (row hk (decodeClassF_of_kk33 hk) rfl nofun)
    · exact .inr (row hk (decodeClassF_of_kk55 hk) rfl nofun)
  · exact .inl (.inr (.inr ⟨hc, hk⟩))

/-- The dispatch of R55, said once: a word is in the catch-all row, or decodes to a row of its own. -/
theorem decode_cases (w : Word) : InCatchAllRow w ∨ DecodesToRow w := by
  rcases nibble_cases (fieldClass w) with
    hc | hc | hc | hc | hc | hc | hc | hc | hc | hc | hc | hc | hc | hc | hc | hc
  · exact class0_cases hc
  · exact .inr (decodesToRow_of_eq (decode_of_class1 hc) (nnn_of_class hc) nofun)
  · exact .inr (decodesToRow_of_eq (decode_of_class2 hc) (nnn_of_class hc) nofun)
  · exact .inr (decodesToRow_of_eq (decode_of_class3 hc) (xkk_of_class hc) nofun)
  · exact .inr (decodesToRow_of_eq (decode_of_class4 hc) (xkk_of_class hc) nofun)
  · exact .inr (decodesToRow_of_eq (decode_of_class5 hc) (xyn_of_class hc) nofun)
  · exact .inr (decodesToRow_of_eq (decode_of_class6 hc) (xkk_of_class hc) nofun)
  · exact .inr (decodesToRow_of_eq (decode_of_class7 hc) (xkk_of_class hc) nofun)
  · exact class8_cases hc
  · exact .inr (decodesToRow_of_eq (decode_of_class9 hc) (xyn_of_class hc) nofun)
  · exact .inr (decodesToRow_of_eq (decode_of_classA hc) (nnn_of_class hc) nofun)
  · exact .inr (decodesToRow_of_eq (decode_of_classB hc) (nnn_of_class hc) nofun)
  · exact .inr (decodesToRow_of_eq (decode_of_classC hc) (xkk_of_class hc) nofun)
  · exact .inr (decodesToRow_of_eq (decode_of_classD hc) (xyn_of_class hc) nofun)
  · exact .inr (decodesToRow_of_eq (decode_of_classE hc) (nnn_of_class hc) nofun)
  · exact classF_cases hc

theorem encode_decode (w : Word) : encode (decode w) = w :=
  (decode_cases w).elim (fun h => congrArg encode (decode_of_catchAll h)) And.left

theorem inCatchAllRow_of_decode {w u : Word} (h : decode w = .unimpl u) : InCatchAllRow w :=
  (decode_cases w).resolve_right fun hrow => hrow.2 u h

/-! ## The rows a word selects (R56, R57) -/

/-- Every row of the opcode table but the catch-all one. -/
abbrev allRows : List OpcodeRow := opcodeRows ++ namedUnimplRows

theorem wellFormed_unimpl_iff (w : Word) : (Instr.unimpl w).wellFormed = true ↔ ∀ r ∈ allRows, ¬ r.selects w = true := by
  simp [Instr.wellFormed, selectsRow, selectsNamedUnimpl, or_imp, forall_and]

/-- Where a row's mask is all ones, a word that selects it has the pattern's bits. -/
theorem extractLsb'_eq_of_selects {r : OpcodeRow} {w : Word} {start len : Nat} (h : r.selects w = true)
    (hm : r.mask.extractLsb' start len = BitVec.allOnes len) :
    w.extractLsb' start len = r.pattern.extractLsb' start len := by
  have he : w &&& r.mask = r.pattern := beq_iff_eq.1 h
  rw [← he, BitVec.extractLsb'_and, hm, BitVec.and_allOnes]

/-- A word of the catch-all row selects no other row. -/
theorem not_selects_of_catchAll {w : Word} (hw : InCatchAllRow w) {r : OpcodeRow} (hr : r ∈ allRows) :
    ¬ r.selects w = true := by
  intro h
  have hmask : ∀ q ∈ allRows, fieldClass q.mask = 0xF#4 := by decide
  have hclass : fieldClass w = fieldClass r.pattern := extractLsb'_eq_of_selects h (hmask r hr)
  rcases hw with ⟨hc, hE0, hEE⟩ | ⟨hc, hn⟩ | ⟨hc, hk⟩
  · have rows0 : ∀ q ∈ allRows, fieldClass q.pattern = 0x0#4 →
      q.mask = 0xFFFF#16 ∧ (q.pattern = 0x00E0#16 ∨ q.pattern = 0x00EE#16) := by decide
    obtain ⟨hm, hp⟩ := rows0 r hr (hclass ▸ hc)
    have he : w &&& 0xFFFF#16 = r.pattern := hm ▸ beq_iff_eq.1 h
    rw [show 0xFFFF#16 = BitVec.allOnes 16 from rfl, BitVec.and_allOnes] at he
    exact hp.elim (fun hp => hE0 (he.trans hp)) (fun hp => hEE (he.trans hp))
  · have rows8 : ∀ q ∈ allRows, fieldClass q.pattern = 0x8#4 →
      fieldN q.mask = 0xF#4 ∧ fieldN q.pattern ∉ otherAluNibbles := by decide
    obtain ⟨hm, hp⟩ := rows8 r hr (hclass ▸ hc)
    have he : fieldN w = fieldN r.pattern := extractLsb'_eq_of_selects h hm
    exact hp (he ▸ hn)
  · have rowsF : ∀ q ∈ allRows, fieldClass q.pattern = 0xF#4 →
      fieldKK q.mask = 0xFF#8 ∧ fieldKK q.pattern ∈ classFRows := by decide
    obtain ⟨hm, hp⟩ := rowsF r hr (hclass ▸ hc)
    have he : fieldKK w = fieldKK r.pattern := extractLsb'_eq_of_selects h hm
    exact hk (he ▸ hp)

open Laws.EncodingRow (rowOf Statement)

theorem encode_selects_rowOf : ∀ i : Instr, Statement i
  | .cls => Laws.EncodingRow.cls
  | .ret => Laws.EncodingRow.ret
  | .jp nnn => Laws.EncodingRow.jp nnn
  | .call nnn => Laws.EncodingRow.call nnn
  | .seImm x kk => Laws.EncodingRow.seImm x kk
  | .sneImm x kk => Laws.EncodingRow.sneImm x kk
  | .seReg x y n => Laws.EncodingRow.seReg x y n
  | .ldImm x kk => Laws.EncodingRow.ldImm x kk
  | .addImm x kk => Laws.EncodingRow.addImm x kk
  | .ldReg x y => Laws.EncodingRow.ldReg x y
  | .orReg x y => Laws.EncodingRow.orReg x y
  | .andReg x y => Laws.EncodingRow.andReg x y
  | .xorReg x y => Laws.EncodingRow.xorReg x y
  | .addReg x y => Laws.EncodingRow.addReg x y
  | .sub x y => Laws.EncodingRow.sub x y
  | .shr x y => Laws.EncodingRow.shr x y
  | .subn x y => Laws.EncodingRow.subn x y
  | .shl x y => Laws.EncodingRow.shl x y
  | .sneReg x y n => Laws.EncodingRow.sneReg x y n
  | .ldI nnn => Laws.EncodingRow.ldI nnn
  | .jpV0 nnn => Laws.EncodingRow.jpV0 nnn
  | .rnd x kk => Laws.EncodingRow.rnd x kk
  | .drw x y n => Laws.EncodingRow.drw x y n
  | .addI x => Laws.EncodingRow.addI x
  | .ldB x => Laws.EncodingRow.ldB x
  | .ldMemI x => Laws.EncodingRow.ldMemI x
  | .unimplKey nnn => Laws.EncodingRow.unimplKey nnn
  | .unimplGlyph x => Laws.EncodingRow.unimplGlyph x
  | .unimpl w => Laws.EncodingRow.unimpl w

theorem rowOf_mem_allRows {i : Instr} (hi : ∀ u, i ≠ .unimpl u) : rowOf i ∈ allRows.map fun r => (r.mask, r.pattern) := by
  cases i with
  | unimpl u => exact absurd rfl (hi u)
  | _ => simp [rowOf, opcodeRows, opcodeRowsLow, opcodeRowsAlu, opcodeRowsHigh, namedUnimplRows]

/-- The word of every instruction but the catch-all one selects a row of the table. -/
theorem exists_row_selects_encode {i : Instr} (hi : ∀ u, i ≠ .unimpl u) : ∃ r ∈ allRows, r.selects (encode i) = true := by
  obtain ⟨r, hr, he⟩ := List.mem_map.1 (rowOf_mem_allRows hi)
  have hrow := encode_selects_rowOf i
  rw [Statement, ← he] at hrow
  exact ⟨r, hr, beq_iff_eq.2 hrow⟩

/-- A word no other row takes is in the catch-all row: else it would decode to a row, and so select it. -/
theorem wellFormed_unimpl_iff_catchAll (w : Word) : (Instr.unimpl w).wellFormed = true ↔ InCatchAllRow w := by
  rw [wellFormed_unimpl_iff]
  refine ⟨fun h => (decode_cases w).resolve_right ?_, fun h r hr => not_selects_of_catchAll h hr⟩
  rintro ⟨he, hi⟩
  obtain ⟨r, hr, hs⟩ := exists_row_selects_encode hi
  exact h r hr (he ▸ hs)

theorem wellFormed_decode (w : Word) : (decode w).wellFormed = true := by
  cases hd : decode w with
  | unimpl u =>
    have hu : u = w := by rw [← encode_decode w, hd]; rfl
    exact (wellFormed_unimpl_iff_catchAll u).2 (hu ▸ inCatchAllRow_of_decode hd)
  | _ => rfl

/-! ## Decoding undoes encoding: the fields of each word select its row, and are its operands -/

theorem decode_encode_nnn {c : Nibble} {f : Addr → Instr} (hf : ∀ {w : Word}, fieldClass w = c → decode w = f (fieldNNN w))
    (nnn : Addr) : decode (c ++ nnn) = f nnn := by
  rw [hf (fieldClass_nnn c nnn), fieldNNN_nnn]

theorem decode_encode_xkk {c : Nibble} {f : Reg → Byte → Instr}
    (hf : ∀ {w : Word}, fieldClass w = c → decode w = f (fieldX w) (fieldKK w)) (x : Reg) (kk : Byte) :
    decode (c ++ x ++ kk) = f x kk := by
  rw [hf (fieldClass_xkk c x kk), fieldX_xkk, fieldKK_xkk]

theorem decode_encode_xyn {c : Nibble} {f : Reg → Reg → Nibble → Instr}
    (hf : ∀ {w : Word}, fieldClass w = c → decode w = f (fieldX w) (fieldY w) (fieldN w)) (x y : Reg) (n : Nibble) :
    decode (c ++ x ++ y ++ n) = f x y n := by
  rw [hf (fieldClass_xyn c x y n), fieldX_xyn, fieldY_xyn, fieldN_xyn]

theorem decode_encode_class8 {n : Nibble} {f : Reg → Reg → Instr}
    (hf : ∀ {w : Word}, fieldN w = n → decodeClass8 w = f (fieldX w) (fieldY w)) (x y : Reg) :
    decode (0x8#4 ++ x ++ y ++ n) = f x y := by
  rw [decode_of_class8 (fieldClass_xyn 0x8#4 x y n), hf (fieldN_xyn 0x8#4 x y n), fieldX_xyn, fieldY_xyn]

theorem decode_encode_classF {kk : Byte} {f : Reg → Instr}
    (hf : ∀ {w : Word}, fieldKK w = kk → decodeClassF w = f (fieldX w)) (x : Reg) : decode (0xF#4 ++ x ++ kk) = f x := by
  rw [decode_of_classF (fieldClass_xkk 0xF#4 x kk), hf (fieldKK_xkk 0xF#4 x kk), fieldX_xkk]

theorem decode_encode {i : Instr} (hi : i.wellFormed = true) : decode (encode i) = i := by
  cases i with
  | cls => exact (decode_of_class0 (by decide)).trans decodeClass0_00E0
  | ret => decide
  | jp nnn => exact decode_encode_nnn decode_of_class1 nnn
  | call nnn => exact decode_encode_nnn decode_of_class2 nnn
  | seImm x kk => exact decode_encode_xkk decode_of_class3 x kk
  | sneImm x kk => exact decode_encode_xkk decode_of_class4 x kk
  | seReg x y n => exact decode_encode_xyn decode_of_class5 x y n
  | ldImm x kk => exact decode_encode_xkk decode_of_class6 x kk
  | addImm x kk => exact decode_encode_xkk decode_of_class7 x kk
  | ldReg x y => exact decode_encode_class8 decodeClass8_of_n0 x y
  | orReg x y => exact decode_encode_class8 decodeClass8_of_n1 x y
  | andReg x y => exact decode_encode_class8 decodeClass8_of_n2 x y
  | xorReg x y => exact decode_encode_class8 decodeClass8_of_n3 x y
  | addReg x y => exact decode_encode_class8 decodeClass8_of_n4 x y
  | sub x y => exact decode_encode_class8 decodeClass8_of_n5 x y
  | shr x y => exact decode_encode_class8 decodeClass8_of_n6 x y
  | subn x y => exact decode_encode_class8 decodeClass8_of_n7 x y
  | shl x y => exact decode_encode_class8 decodeClass8_of_nE x y
  | sneReg x y n => exact decode_encode_xyn decode_of_class9 x y n
  | ldI nnn => exact decode_encode_nnn decode_of_classA nnn
  | jpV0 nnn => exact decode_encode_nnn decode_of_classB nnn
  | rnd x kk => exact decode_encode_xkk decode_of_classC x kk
  | drw x y n => exact decode_encode_xyn decode_of_classD x y n
  | addI x => exact decode_encode_classF decodeClassF_of_kk1E x
  | ldB x => exact decode_encode_classF decodeClassF_of_kk33 x
  | ldMemI x => exact decode_encode_classF decodeClassF_of_kk55 x
  | unimplKey nnn => exact decode_encode_nnn decode_of_classE nnn
  | unimplGlyph x => exact decode_encode_classF decodeClassF_of_kk29 x
  | unimpl w => exact decode_of_catchAll ((wellFormed_unimpl_iff_catchAll w).1 hi)

/-! ## Rows that exclude each other, and the unimplemented words (R56, R57) -/

/-- Two rows that one word selects agree wherever both masks look. -/
theorem pattern_and_mask_eq_of_selects {r q : OpcodeRow} {w : Word} (hr : r.selects w = true) (hq : q.selects w = true) :
    r.pattern &&& q.mask = q.pattern &&& r.mask := by
  have er : w &&& r.mask = r.pattern := beq_iff_eq.1 hr
  have eq : w &&& q.mask = q.pattern := beq_iff_eq.1 hq
  rw [← er, ← eq, BitVec.and_assoc, BitVec.and_assoc, BitVec.and_comm r.mask]

end Sys2Proof

namespace Sys2Proof.Machine

/-- A word decodes to an UNIMPL row exactly when it is in the catch-all row or in one of the two named ones. -/
theorem isUnimpl_decode_iff (w : Word) : isUnimpl (decode w) = true ↔
    InCatchAllRow w ∨ fieldClass w = 0xE#4 ∨ (fieldClass w = 0xF#4 ∧ fieldKK w = 0x29#8) := by
  constructor
  · intro h
    have he := encode_decode w
    cases hd : decode w with
    | unimpl u => exact .inl (inCatchAllRow_of_decode hd)
    | unimplKey nnn => rw [hd] at he; exact .inr (.inl (he ▸ fieldClass_nnn 0xE#4 nnn))
    | unimplGlyph x =>
      rw [hd] at he
      exact .inr (.inr (he ▸ ⟨fieldClass_xkk 0xF#4 x 0x29#8, fieldKK_xkk 0xF#4 x 0x29#8⟩))
    | _ => rw [hd] at h; exact absurd h (by simp [isUnimpl])
  · rintro (h | hc | ⟨hc, hk⟩)
    · rw [decode_of_catchAll h]; rfl
    · rw [decode_of_classE hc]; rfl
    · rw [decode_of_classF hc, decodeClassF_of_kk29 hk]; rfl

theorem not_mem_classF_instructions_iff (kk : Byte) :
    kk ∉ [0x1E#8, 0x33#8, 0x55#8] ↔ kk ∉ classFRows ∨ kk = 0x29#8 := by
  by_cases h : kk = 0x29#8
  · simp [h]
  · simp [h]

/-- Settles O1: each row by the fields of its word; the catch-all row by what selects no other row. -/
theorem decodeEncodeRoundTrip : Obligations.DecodeEncodeRoundTrip := fun _ hi => decode_encode hi

/-- Settles O2: a word is in the catch-all row or re-encodes from the fields of its own row. -/
theorem encodeDecodeRoundTrip : Obligations.EncodeDecodeRoundTrip := fun w => ⟨wellFormed_decode w, encode_decode w⟩

/-- Settles O4: the catch-all row and the two named rows together are the listed words, Fx29 among class F's others. -/
theorem unimplementedSpaceIsExact : Obligations.UnimplementedSpaceIsExact := by
  intro w
  rw [isUnimpl_decode_iff, not_mem_classF_instructions_iff, InCatchAllRow]
  tauto

/-- Settles O6: two of the 26 rows differ in a bit that both masks look at. -/
theorem opcodeRowsDisjoint : Obligations.OpcodeRowsDisjoint := by
  have hne : opcodeRows.Pairwise fun r q => r.pattern &&& q.mask ≠ q.pattern &&& r.mask := by decide
  exact hne.imp fun h w ⟨hr, hq⟩ => h (pattern_and_mask_eq_of_selects hr hq)

/-- Settles O3: the eight words are closed terms, evaluated by the decoder. -/
theorem wordsFromTheSpecDecode : Obligations.WordsFromTheSpecDecode := by
  unfold Obligations.WordsFromTheSpecDecode
  decide

end Sys2Proof.Machine
end

section
/-! PROOF. What each instruction can do, said once: an equation for each meaning, by its branches, then the parts of the state each instruction may change and the frame that follows. The whole-machine statements on the stack, memory and the framebuffer are read off it. -/

namespace Sys2Proof.Machine

/-! ## One equation for each branch of a meaning -/

theorem exec_addReg (x y : Reg) (s : State) :
    exec (.addReg x y) s = .next (s.writeResultFlag x (addCarry (s.readV x) (s.readV y))) := rfl

theorem exec_sub (x y : Reg) (s : State) :
    exec (.sub x y) s = .next (s.writeResultFlag x (subFlag (s.readV x) (s.readV y))) := rfl

theorem execShr_eq (x : Reg) (s : State) : execShr x s = .next (s.writeResultFlag x (shiftRight (s.readV x))) := rfl

theorem exec_subn (x y : Reg) (s : State) :
    exec (.subn x y) s = .next (s.writeResultFlag x (subFlag (s.readV y) (s.readV x))) := rfl

theorem execShl_eq (x : Reg) (s : State) :
    execShl x s = .next (s.writeResultFlag x (shiftLeft s.params.shlFlagSource (s.readV x))) := rfl

theorem exec_addI (x : Reg) (s : State) : exec (.addI x) s = .next (s.setI (s.I + zextByte (s.readV x))) := rfl

theorem exec_rnd (x : Reg) (kk : Byte) (s : State) :
    exec (.rnd x kk) s = .next (s.draw8.2.writeV x (s.draw8.1 &&& kk)) := rfl

theorem exec_unimplKey (nnn : Addr) (s : State) :
    exec (.unimplKey nnn) s = .next (s.reportUnimpl (0xE#4 ++ nnn)) := rfl

theorem exec_unimplGlyph (x : Reg) (s : State) :
    exec (.unimplGlyph x) s = .next (s.reportUnimpl (0xF#4 ++ x ++ 0x29#8)) := rfl

theorem exec_unimpl (w : Word) (s : State) : exec (.unimpl w) s = .next (s.reportUnimpl w) := rfl

/-- RET (R73): STACK_UNDERFLOW on the empty stack, or the top slot to pc and SP one lower. -/
theorem exec_ret_cases (s : State) :
    (s.sp.val = 0 ∧ exec .ret s = .next (s.raise (.stackUnderflow 0x00EE#16))) ∨
    (∃ (j : Fin 16) (depth : Fin 17), j.val + 1 = s.sp.val ∧ depth.val = j.val ∧
      exec .ret s = .next (({ s with sp := depth } : State).setPc s.stack[j])) := by
  rcases pop_cases s (encode .ret) with ⟨h0, hp⟩ | ⟨j, depth, hj, hd, hp⟩
  · exact .inl ⟨h0, by rw [exec, execRet, hp]; rfl⟩
  · exact .inr ⟨j, depth, hj, hd, by rw [exec, execRet, hp]⟩

/-- CALL (R75): STACK_OVERFLOW on the full stack, or pc to the slot at SP, SP one higher and pc to the target. -/
theorem exec_call_cases (nnn : Addr) (s : State) :
    (s.sp.val = 16 ∧ exec (.call nnn) s = .next (s.raise (.stackOverflow (0x2#4 ++ nnn)))) ∨
    (∃ (slots : Vector Word 16) (depth : Fin 17), s.sp.val < 16 ∧
      exec (.call nnn) s = .next (({ s with stack := slots, sp := depth } : State).setPc (addrOperand nnn)) ∧
      depth.val = s.sp.val + 1 ∧ ∀ j : Fin 16, slots[j] = if j.val = s.sp.val then s.pc else s.stack[j]) := by
  rcases push_cases s s.pc (encode (.call nnn)) with ⟨h16, hp⟩ | ⟨slots, depth, hlt, hp, hd, hs⟩
  · exact .inl ⟨h16, by rw [exec, execCall, hp]; rfl⟩
  · exact .inr ⟨slots, depth, hlt, by rw [exec, execCall, hp], hd, hs⟩

theorem length_bcdDigits (b : Byte) : (bcdDigits b).length = 3 := rfl

theorem length_regRange (s : State) (x : Reg) : (s.regRange x).length = x.toNat + 1 := by
  have hx : x.toNat < 16 := x.isLt
  simp only [State.regRange, List.length_take, Vector.length_toList]
  omega

/-- The bytes of a store after it, whether or not all of them fit (R99, R100). -/
def State.stored (s : State) (vs : List Byte) : State := s.setMem (s.mem.copyFrom (s.effAddr 0) vs)

/-- A store of bytes of which none lies past the end of memory. -/
theorem finish_storeBytes_of_fits {s : State} {vs : List Byte} (h : s.effAddr 0 + vs.length ≤ 4096) :
    finish (s.storeBytes (s.effAddr 0) vs) = .next (s.stored vs) := by
  rw [storeBytes_ok s _ vs h]
  rfl

/-- A store of bytes of which the last lies past the end of memory. -/
theorem finish_storeBytes_past_end {s : State} {vs : List Byte} (hne : vs ≠ []) (h : 4096 < s.effAddr 0 + vs.length) :
    finish (s.storeBytes (s.effAddr 0) vs) =
      .next ((s.stored vs).raise (.outOfBounds .write (max (s.effAddr 0) 4096))) := by
  rw [storeBytes_error s _ vs h hne]
  rfl

theorem exec_ldB_of_fits {x : Reg} {s : State} (h : s.effAddr 2 < 4096) :
    exec (.ldB x) s = .next (s.stored (bcdDigits (s.readV x))) :=
  finish_storeBytes_of_fits (by rw [length_bcdDigits]; exact h)

theorem exec_ldB_past_end {x : Reg} {s : State} (h : 4096 ≤ s.effAddr 2) :
    exec (.ldB x) s =
      .next ((s.stored (bcdDigits (s.readV x))).raise (.outOfBounds .write (max (s.effAddr 0) 4096))) :=
  finish_storeBytes_past_end (List.cons_ne_nil _ _) (by rw [length_bcdDigits]; exact Nat.lt_succ_of_le h)

theorem exec_ldMemI_of_fits {x : Reg} {s : State} (h : s.effAddr x.toNat < 4096) :
    exec (.ldMemI x) s = .next (s.stored (s.regRange x)) :=
  finish_storeBytes_of_fits (by rw [length_regRange]; exact h)

theorem exec_ldMemI_past_end {x : Reg} {s : State} (h : 4096 ≤ s.effAddr x.toNat) :
    exec (.ldMemI x) s = .next ((s.stored (s.regRange x)).raise (.outOfBounds .write (max (s.effAddr 0) 4096))) :=
  finish_storeBytes_past_end (List.ne_nil_of_length_eq_add_one (length_regRange s x))
    (by rw [length_regRange]; exact Nat.lt_succ_of_le h)

theorem spriteRefused_eq_false_iff (p : Params) (a : Nat) : spriteRefused p a = false ↔ SpriteByteReadable p a := by
  simp [spriteRefused, SpriteByteReadable]

theorem spriteRefused_iff (p : Params) (a : Nat) : spriteRefused p a = true ↔ ¬ SpriteByteReadable p a := by
  rw [← spriteRefused_eq_false_iff, Bool.not_eq_false]

/-- The sprite's bytes in order, as DRW reads them (R109). -/
def State.spriteRows (s : State) (n : Nibble) : List Byte := (List.range n.toNat).map fun j => s.mem.get (s.effAddr j)

/-- The framebuffer and the collision flag of DRW (R106, R107). -/
def State.drawn (s : State) (x y : Reg) (n : Nibble) : Framebuffer × Bool :=
  composite (s.readV x).toNat (s.readV y).toNat (s.spriteRows n) s.fb

/-- DRW of a sprite that may be read (R109). -/
theorem exec_drw_of_readable {x y : Reg} {n : Nibble} {s : State} (h : SpriteReadable s n) :
    exec (.drw x y n) s = .next ((s.setFb (s.drawn x y n).1).writeV regVF (flagOf (s.drawn x y n).2)) := by
  have hr := readSprite_ok s (s.effAddr 0) n.toNat fun j hj => (spriteRefused_eq_false_iff _ _).2 (h j hj)
  rw [exec, execDrw, hr]
  rfl

/-- DRW of a sprite whose byte at I + j is the first that may not be read (R112). -/
theorem exec_drw_of_refused {x y : Reg} {n : Nibble} {s : State} {j : Nat} (hj : j < n.toNat)
    (hbad : ¬ SpriteByteReadable s.params (s.effAddr j))
    (hgood : ∀ k < j, SpriteByteReadable s.params (s.effAddr k)) :
    exec (.drw x y n) s = .next (s.raise (.outOfBounds .read (s.effAddr j))) := by
  have hr := readSprite_error s (s.effAddr 0) n.toNat j hj ((spriteRefused_iff _ _).2 hbad)
    fun k hk => (spriteRefused_eq_false_iff _ _).2 (hgood k hk)
  rw [exec, execDrw, hr]
  rfl

/-- A sprite may be read, or has a first byte that may not. -/
theorem spriteReadable_or_first_refused (s : State) (n : Nibble) :
    SpriteReadable s n ∨ ∃ j < n.toNat, ¬ SpriteByteReadable s.params (s.effAddr j) ∧
      ∀ k < j, SpriteByteReadable s.params (s.effAddr k) := by
  by_cases h : ∃ j, j < n.toNat ∧ ¬ SpriteByteReadable s.params (s.effAddr j)
  · obtain ⟨hj, hbad⟩ := Nat.find_spec h
    refine .inr ⟨Nat.find h, hj, hbad, fun k hk => ?_⟩
    by_contra hk'
    exact Nat.find_min h hk ⟨hk.trans hj, hk'⟩
  · exact .inl fun j hj => not_not.1 fun hbad => h ⟨j, hj, hbad⟩

/-- DRW (R109, R112): it takes a fatal outcome with nothing drawn, or draws. -/
theorem exec_drw_cases (x y : Reg) (n : Nibble) (s : State) :
    (∃ j, exec (.drw x y n) s = .next (s.raise (.outOfBounds .read (s.effAddr j)))) ∨
    exec (.drw x y n) s = .next ((s.setFb (s.drawn x y n).1).writeV regVF (flagOf (s.drawn x y n).2)) := by
  rcases spriteReadable_or_first_refused s n with h | ⟨j, hj, hbad, hgood⟩
  · exact .inr (exec_drw_of_readable h)
  · exact .inl ⟨j, exec_drw_of_refused hj hbad hgood⟩

/-- A store (R99, R100): what it wrote, and a fatal outcome where it did not fit. -/
theorem exec_ldB_cases (x : Reg) (s : State) :
    exec (.ldB x) s = .next (s.stored (bcdDigits (s.readV x))) ∨
    exec (.ldB x) s =
      .next ((s.stored (bcdDigits (s.readV x))).raise (.outOfBounds .write (max (s.effAddr 0) 4096))) :=
  (lt_or_ge (s.effAddr 2) 4096).imp exec_ldB_of_fits exec_ldB_past_end

theorem exec_ldMemI_cases (x : Reg) (s : State) :
    exec (.ldMemI x) s = .next (s.stored (s.regRange x)) ∨
    exec (.ldMemI x) s = .next ((s.stored (s.regRange x)).raise (.outOfBounds .write (max (s.effAddr 0) 4096))) :=
  (lt_or_ge (s.effAddr x.toNat) 4096).imp exec_ldMemI_of_fits exec_ldMemI_past_end

/-! ## Frames of the updates that Laws does not frame -/

theorem keepsAllBut_setOutcome (s : State) (o : StepOutcome) : KeepsAllBut [.outcome] s (s.setOutcome o) := by
  intro p hp; cases p <;> simp_all [Kept]

theorem keepsAllBut_draw8 (s : State) : KeepsAllBut [.draws] s s.draw8.2 := by
  intro p hp; cases p <;> simp_all [Kept]

theorem keepsAllBut_stack (s : State) (slots : Vector Word 16) (depth : Fin 17) :
    KeepsAllBut [.stack] s { s with stack := slots, sp := depth } := by
  intro p hp; cases p <;> simp_all [Kept, State.readV]

theorem keepsAllBut_stored (s : State) (vs : List Byte) : KeepsAllBut [.mem] s (s.stored vs) :=
  keepsAllBut_setMem s _

theorem keepsAllBut_stored_raise (s : State) (vs : List Byte) (f : Word → FatalOutcome) :
    KeepsAllBut [.mem, .status, .outcome] s ((s.stored vs).raise f) :=
  ((keepsAllBut_stored s vs).mono (by simp)).trans ((keepsAllBut_raise _ f).mono (by simp))

/-- The parts that an instruction may change. -/
def touched : Instr → List Part
  | .cls => [.fb]
  | .ret | .call _ => [.pc, .stack, .status, .outcome]
  | .jp _ | .jpV0 _ | .seImm _ _ | .sneImm _ _ | .seReg _ _ _ | .sneReg _ _ _ => [.pc]
  | .ldImm _ _ | .addImm _ _ | .ldReg _ _ | .orReg _ _ | .andReg _ _ | .xorReg _ _ | .addReg _ _ | .sub _ _ | .shr _ _
  | .subn _ _ | .shl _ _ => [.v]
  | .ldI _ | .addI _ => [.I]
  | .rnd _ _ => [.v, .draws]
  | .drw _ _ _ => [.v, .fb, .status, .outcome]
  | .ldB _ | .ldMemI _ => [.mem, .status, .outcome]
  | .unimplKey _ | .unimplGlyph _ | .unimpl _ => [.outcome, .mark]

/-- An instruction changes only the parts it may change. -/
theorem exec_frame (i : Instr) (s : State) : ∃ t, exec i s = .next t ∧ KeepsAllBut (touched i) s t := by
  cases i with
  | cls => exact ⟨_, exec_cls s, keepsAllBut_setFb s _⟩
  | ret =>
    rcases exec_ret_cases s with ⟨_, h⟩ | ⟨j, depth, _, _, h⟩
    · exact ⟨_, h, (keepsAllBut_raise s _).mono (by simp [touched])⟩
    · exact ⟨_, h, ((keepsAllBut_stack s s.stack depth).mono (by simp [touched])).trans
        ((keepsAllBut_setPc _ _).mono (by simp [touched]))⟩
  | jp nnn => exact ⟨_, exec_jp nnn s, keepsAllBut_setPc s _⟩
  | call nnn =>
    rcases exec_call_cases nnn s with ⟨_, h⟩ | ⟨slots, depth, _, h, _, _⟩
    · exact ⟨_, h, (keepsAllBut_raise s _).mono (by simp [touched])⟩
    · exact ⟨_, h, ((keepsAllBut_stack s slots depth).mono (by simp [touched])).trans
        ((keepsAllBut_setPc _ _).mono (by simp [touched]))⟩
  | seImm x kk => exact ⟨_, exec_seImm x kk s, keepsAllBut_skipIf s _⟩
  | sneImm x kk => exact ⟨_, exec_sneImm x kk s, keepsAllBut_skipIf s _⟩
  | seReg x y n => exact ⟨_, (exec_seReg x y n s).trans (execSeReg_eq x y s), keepsAllBut_skipIf s _⟩
  | ldImm x kk => exact ⟨_, exec_ldImm x kk s, keepsAllBut_writeV s x _⟩
  | addImm x kk => exact ⟨_, exec_addImm x kk s, keepsAllBut_writeV s x _⟩
  | ldReg x y => exact ⟨_, exec_ldReg x y s, keepsAllBut_writeV s x _⟩
  | orReg x y => exact ⟨_, exec_orReg x y s, keepsAllBut_writeV s x _⟩
  | andReg x y => exact ⟨_, exec_andReg x y s, keepsAllBut_writeV s x _⟩
  | xorReg x y => exact ⟨_, exec_xorReg x y s, keepsAllBut_writeV s x _⟩
  | addReg x y => exact ⟨_, exec_addReg x y s, keepsAllBut_writeResultFlag s x _⟩
  | sub x y => exact ⟨_, exec_sub x y s, keepsAllBut_writeResultFlag s x _⟩
  | shr x y => exact ⟨_, (exec_shr x y s).trans (execShr_eq x s), keepsAllBut_writeResultFlag s x _⟩
  | subn x y => exact ⟨_, exec_subn x y s, keepsAllBut_writeResultFlag s x _⟩
  | shl x y => exact ⟨_, (exec_shl x y s).trans (execShl_eq x s), keepsAllBut_writeResultFlag s x _⟩
  | sneReg x y n => exact ⟨_, (exec_sneReg x y n s).trans (execSneReg_eq x y s), keepsAllBut_skipIf s _⟩
  | ldI nnn => exact ⟨_, exec_ldI nnn s, keepsAllBut_setI s _⟩
  | jpV0 nnn => exact ⟨_, exec_jpV0 nnn s, keepsAllBut_setPc s _⟩
  | rnd x kk =>
    exact ⟨_, exec_rnd x kk s, ((keepsAllBut_draw8 s).mono (by simp [touched])).trans
      ((keepsAllBut_writeV _ x _).mono (by simp [touched]))⟩
  | drw x y n =>
    rcases exec_drw_cases x y n s with ⟨j, h⟩ | h
    · exact ⟨_, h, (keepsAllBut_raise s _).mono (by simp [touched])⟩
    · exact ⟨_, h, ((keepsAllBut_setFb s _).mono (by simp [touched])).trans
        ((keepsAllBut_writeV _ _ _).mono (by simp [touched]))⟩
  | addI x => exact ⟨_, exec_addI x s, keepsAllBut_setI s _⟩
  | ldB x =>
    rcases exec_ldB_cases x s with h | h
    · exact ⟨_, h, (keepsAllBut_stored s _).mono (by simp [touched])⟩
    · exact ⟨_, h, keepsAllBut_stored_raise s _ _⟩
  | ldMemI x =>
    rcases exec_ldMemI_cases x s with h | h
    · exact ⟨_, h, (keepsAllBut_stored s _).mono (by simp [touched])⟩
    · exact ⟨_, h, keepsAllBut_stored_raise s _ _⟩
  | unimplKey nnn => exact ⟨_, exec_unimplKey nnn s, keepsAllBut_reportUnimpl s _⟩
  | unimplGlyph x => exact ⟨_, exec_unimplGlyph x s, keepsAllBut_reportUnimpl s _⟩
  | unimpl w => exact ⟨_, exec_unimpl w s, keepsAllBut_reportUnimpl s w⟩

/-- An instruction that answers `t` keeps in it every part it may not change. -/
theorem kept_of_exec {i : Instr} {s t : State} {p : Part} (h : exec i s = .next t) (hp : p ∉ touched i) : Kept p s t := by
  obtain ⟨u, hu, hframe⟩ := exec_frame i s
  obtain rfl : u = t := Host.Outcome.next.inj (hu.symm.trans h)
  exact hframe p hp

theorem mem_not_touched {i : Instr} (hb : ∀ x, i ≠ .ldB x) (hm : ∀ x, i ≠ .ldMemI x) : Part.mem ∉ touched i := by
  cases i with
  | ldB x => exact absurd rfl (hb x)
  | ldMemI x => exact absurd rfl (hm x)
  | _ => simp [touched]

theorem stack_not_touched {i : Instr} (hc : ∀ nnn, i ≠ .call nnn) (hr : i ≠ .ret) : Part.stack ∉ touched i := by
  cases i with
  | call nnn => exact absurd rfl (hc nnn)
  | ret => exact absurd rfl hr
  | _ => simp [touched]

theorem fb_not_touched {i : Instr} (hc : i ≠ .cls) (hd : ∀ x y n, i ≠ .drw x y n) : Part.fb ∉ touched i := by
  cases i with
  | cls => exact absurd rfl hc
  | drw x y n => exact absurd rfl (hd x y n)
  | _ => simp [touched]

theorem environment_not_touched (i : Instr) : Part.timers ∉ touched i ∧ Part.keys ∉ touched i ∧ Part.params ∉ touched i := by
  cases i <;> simp [touched]

/-- Settles O49: memory is a part that only the two stores may change. -/
theorem onlyStoresWriteMemory : Obligations.OnlyStoresWriteMemory :=
  fun _ _ _ h hb hm => kept_of_exec h (mem_not_touched hb hm)

/-- Settles O50: the stack is a part that only CALL and RET may change. -/
theorem onlyCallAndRetTouchStack : Obligations.OnlyCallAndRetTouchStack :=
  fun _ _ _ h hc hr => kept_of_exec h (stack_not_touched hc hr)

end Sys2Proof.Machine
end

section
/-! PROOF. The cycle (spec/40_cycle.md R63 to R72): what a step answers in each case, what the instruction it runs reports, and the whole-machine statements on timers, keys, the sticky mark and the tabulated outcome. -/

namespace Sys2Proof.Machine

/-! ## What a step answers in each case -/

/-- A fetch reads a word here: R64, R65 and R66 do not apply. -/
def State.Fetchable (s : State) : Prop :=
  s.pc.toNat + 1 < 4096 ∧ 0x200 ≤ s.pc.toNat ∧ (s.pc.toNat % 2 = 1 → s.params.oddPcPolicy = .fetch)

/-- The instruction of the two bytes at pc. -/
def State.fetchedInstr (s : State) : Instr :=
  decode (wordOfBytes (s.mem.get s.pc.toNat) (s.mem.get (s.pc.toNat + 1)))

/-- The state an instruction executes in: pc advanced, outcome OK (R67, R68). -/
def State.afterFetch (s : State) : State := (s.setPc (s.pc + 2#16)).setOutcome .ok

theorem step_of_faulted {s : State} {o : FatalOutcome} (h : s.status = .faulted o) : step s = .fault (.engineFaulted o) := by
  simp [step, beginStep, h]

theorem step_past_end {s : State} (hr : s.status = .running) (h : 4096 ≤ s.pc.toNat + 1) :
    step s = .next (s.setOutcome (.exhausted s.pc)) := by
  simp [step, beginStep, fetch, hr, h]

theorem step_below {s : State} (hr : s.status = .running) (h : s.pc.toNat < 0x200) :
    step s = .next (s.raise (.outOfBounds .fetch s.pc.toNat)) := by
  have hend : ¬ 4096 ≤ s.pc.toNat + 1 := by omega
  simp [step, beginStep, fetch, hr, h, hend]

theorem step_odd {s : State} (hr : s.status = .running) (hend : s.pc.toNat + 1 < 4096) (hlow : 0x200 ≤ s.pc.toNat)
    (hodd : s.pc.toNat % 2 = 1) (hp : s.params.oddPcPolicy = .fault) :
    step s = .next (s.raise (.outOfBounds (oddFetchKind s.params) s.pc.toNat)) := by
  simp [step, beginStep, fetch, hr, hend.not_ge, hlow.not_gt, hodd, hp]

theorem step_of_fetchable {s : State} (hr : s.status = .running) (h : s.Fetchable) :
    step s = exec s.fetchedInstr s.afterFetch := by
  obtain ⟨hend, hlow, hodd⟩ := h
  have hpol : ¬ (s.pc.toNat % 2 = 1 ∧ s.params.oddPcPolicy = .fault) := fun ⟨ho, hf⟩ => by
    rw [hodd ho] at hf; exact OddPcPolicy.noConfusion hf
  simp only [step, beginStep, fetch, hr, memSize_eq, progStart_eq, hend.not_ge, hlow.not_gt, hpol, if_false]
  rfl

/-- A next state is the same state with EXHAUSTED recorded, the same state with a fatal outcome taken, or what the
fetched instruction answers. -/
theorem step_next_cases {s t : State} (h : step s = .next t) :
    t = s.setOutcome (.exhausted s.pc) ∨ (∃ f, t = s.raise f) ∨
    (s.status = .running ∧ s.Fetchable ∧ exec s.fetchedInstr s.afterFetch = .next t) := by
  rcases step_cases s with ⟨o, _, hs⟩ | ⟨_, _, hs⟩ | ⟨_, _, hs⟩ | ⟨_, _, _, _, _, hs⟩ | ⟨hr, hend, hlow, hodd, hs⟩
  · rw [hs] at h; cases h
  · exact .inl (Host.Outcome.next.inj (h.symm.trans hs))
  · exact .inr (.inl ⟨_, Host.Outcome.next.inj (h.symm.trans hs)⟩)
  · exact .inr (.inl ⟨_, Host.Outcome.next.inj (h.symm.trans hs)⟩)
  · exact .inr (.inr ⟨hr, ⟨hend, hlow, hodd⟩, hs.symm.trans h⟩)

theorem keepsAllBut_afterFetch (s : State) : KeepsAllBut [.pc, .outcome] s s.afterFetch :=
  ((keepsAllBut_setPc s _).mono (by simp)).trans ((keepsAllBut_setOutcome _ _).mono (by simp))

/-- A part that no fetch, outcome or instruction may change is kept by every step. -/
theorem kept_of_step {s t : State} {p : Part} (h : step s = .next t) (hf : p ∉ [Part.pc, .status, .outcome])
    (hp : ∀ i, p ∉ touched i) : Kept p s t := by
  simp only [List.mem_cons, List.not_mem_nil, or_false, not_or] at hf
  rcases step_next_cases h with rfl | ⟨f, rfl⟩ | ⟨_, _, hx⟩
  · exact keepsAllBut_setOutcome s _ p (by simp [hf])
  · exact keepsAllBut_raise s f p (by simp [hf])
  · exact (keepsAllBut_afterFetch s p (by simp [hf])).trans (kept_of_exec hx (hp _))

/-- Settles O46: no fetch and no instruction may change a timer, the keys or a parameter. -/
theorem stepsKeepTimersKeysParams : Obligations.StepsKeepTimersKeysParams := fun _ _ h =>
  ⟨kept_of_step h (by decide) fun i => (environment_not_touched i).1,
    kept_of_step h (by decide) fun i => (environment_not_touched i).2.1,
    kept_of_step h (by decide) fun i => (environment_not_touched i).2.2⟩

/-! ## The outcome an instruction reports (R114) -/

/-- The status a step leaves with its outcome (R116). -/
def statusAfter : StepOutcome → Status
  | .fatal o => .faulted o
  | .ok | .unimplemented _ | .exhausted _ => .running

theorem raised_outcome_status (s : State) (f : Word → FatalOutcome) :
    (s.raise f).outcome = .fatal (f s.pc) ∧ (s.raise f).status = statusAfter (.fatal (f s.pc)) := ⟨rfl, rfl⟩

/-- An instruction that may change neither outcome nor status completes with OK. -/
theorem executeOutcome_of_not_touched {i : Instr} (s : State) (h : Part.outcome ∉ touched i) : executeOutcome i s = .ok := by
  cases i with
  | ret | call | drw | ldB | ldMemI | unimplKey | unimplGlyph | unimpl => simp [touched] at h
  | _ => rfl

theorem status_not_touched {i : Instr} (h : Part.outcome ∉ touched i) : Part.status ∉ touched i := by
  cases i <;> simp_all [touched]

/-- The first byte the table's row for DRW looks for is the first one that may not be read. -/
theorem executeOutcome_drw_of_refused {x y : Reg} {n : Nibble} {s : State} {j : Nat} (hj : j < n.toNat)
    (hbad : ¬ SpriteByteReadable s.params (s.effAddr j)) (hgood : ∀ k < j, SpriteByteReadable s.params (s.effAddr k)) :
    executeOutcome (.drw x y n) s = oob .read (s.effAddr j) s.pc := by
  have hfind : (List.range n.toNat).find? (fun k => spriteRefused s.params (s.effAddr k)) = some j := by
    rw [List.find?_range_eq_some]
    exact ⟨(spriteRefused_iff _ _).2 hbad, List.mem_range.2 hj,
      fun k hk => by simpa using (spriteRefused_eq_false_iff _ _).2 (hgood k hk)⟩
  unfold spriteRefused State.effAddr at hfind
  rw [executeOutcome, hfind]
  rfl

theorem executeOutcome_drw_of_readable {x y : Reg} {n : Nibble} {s : State} (h : SpriteReadable s n) :
    executeOutcome (.drw x y n) s = .ok := by
  have hfind : (List.range n.toNat).find? (fun k => spriteRefused s.params (s.effAddr k)) = none := by
    rw [List.find?_eq_none]
    exact fun j hj => by simpa using (spriteRefused_eq_false_iff _ _).2 (h j (List.mem_range.1 hj))
  unfold spriteRefused State.effAddr at hfind
  rw [executeOutcome, hfind]

theorem executeOutcome_ldB_of_fits {x : Reg} {s : State} (h : s.effAddr 2 < 4096) : executeOutcome (.ldB x) s = .ok :=
  if_neg h.not_ge

theorem executeOutcome_ldB_past_end {x : Reg} {s : State} (h : 4096 ≤ s.effAddr 2) :
    executeOutcome (.ldB x) s = oob .write (max (s.effAddr 0) 4096) s.pc :=
  if_pos h

theorem executeOutcome_ldMemI_of_fits {x : Reg} {s : State} (h : s.effAddr x.toNat < 4096) :
    executeOutcome (.ldMemI x) s = .ok :=
  if_neg h.not_ge

theorem executeOutcome_ldMemI_past_end {x : Reg} {s : State} (h : 4096 ≤ s.effAddr x.toNat) :
    executeOutcome (.ldMemI x) s = oob .write (max (s.effAddr 0) 4096) s.pc :=
  if_pos h

/-- Execute reports what R114's table says and leaves the status that goes with it. -/
theorem exec_outcome_status (i : Instr) {s : State} (hr : s.status = .running) (ho : s.outcome = .ok) :
    ∃ t, exec i s = .next t ∧ t.outcome = executeOutcome i s ∧ t.status = statusAfter (executeOutcome i s) := by
  by_cases htouched : Part.outcome ∈ touched i
  case neg =>
    obtain ⟨t, h, hframe⟩ := exec_frame i s
    have hto : t.outcome = s.outcome := hframe .outcome htouched
    have hts : t.status = s.status := hframe .status (status_not_touched htouched)
    rw [executeOutcome_of_not_touched s htouched]
    exact ⟨t, h, hto.trans ho, hts.trans hr⟩
  cases i with
  | ret =>
    rcases exec_ret_cases s with ⟨h0, h⟩ | ⟨j, depth, hj, _, h⟩
    · rw [executeOutcome, if_pos h0]; exact ⟨_, h, raised_outcome_status s _⟩
    · rw [executeOutcome, if_neg (by omega)]; exact ⟨_, h, ho, hr⟩
  | call nnn =>
    rcases exec_call_cases nnn s with ⟨h16, h⟩ | ⟨slots, depth, hlt, h, _, _⟩
    · rw [executeOutcome, if_pos h16]; exact ⟨_, h, raised_outcome_status s _⟩
    · rw [executeOutcome, if_neg (by omega)]; exact ⟨_, h, ho, hr⟩
  | drw x y n =>
    rcases spriteReadable_or_first_refused s n with hread | ⟨j, hj, hbad, hgood⟩
    · rw [executeOutcome_drw_of_readable hread]; exact ⟨_, exec_drw_of_readable hread, ho, hr⟩
    · rw [executeOutcome_drw_of_refused hj hbad hgood]
      exact ⟨_, exec_drw_of_refused hj hbad hgood, raised_outcome_status s _⟩
  | ldB x =>
    rcases lt_or_ge (s.effAddr 2) 4096 with hfit | hend
    · rw [executeOutcome_ldB_of_fits hfit]; exact ⟨_, exec_ldB_of_fits hfit, ho, hr⟩
    · rw [executeOutcome_ldB_past_end hend]; exact ⟨_, exec_ldB_past_end hend, raised_outcome_status _ _⟩
  | ldMemI x =>
    rcases lt_or_ge (s.effAddr x.toNat) 4096 with hfit | hend
    · rw [executeOutcome_ldMemI_of_fits hfit]; exact ⟨_, exec_ldMemI_of_fits hfit, ho, hr⟩
    · rw [executeOutcome_ldMemI_past_end hend]; exact ⟨_, exec_ldMemI_past_end hend, raised_outcome_status _ _⟩
  | unimplKey nnn => exact ⟨_, exec_unimplKey nnn s, rfl, hr⟩
  | unimplGlyph x => exact ⟨_, exec_unimplGlyph x s, rfl, hr⟩
  | unimpl w => exact ⟨_, exec_unimpl w s, rfl, hr⟩
  | _ => simp [touched] at htouched

/-! ## The outcome a step returns, in the priority of R118 -/

theorem stepOutcome_past_end {s : State} (h : 4096 ≤ s.pc.toNat + 1) : stepOutcome s = .exhausted s.pc := if_pos h

theorem stepOutcome_below {s : State} (h : s.pc.toNat < 0x200) : stepOutcome s = oob .fetch s.pc.toNat s.pc := by
  rw [stepOutcome, if_neg (by omega), if_pos h]

theorem stepOutcome_odd {s : State} (hend : s.pc.toNat + 1 < 4096) (hlow : 0x200 ≤ s.pc.toNat)
    (hodd : s.pc.toNat % 2 = 1) (hp : s.params.oddPcPolicy = .fault) :
    stepOutcome s = oob (oddFetchKind s.params) s.pc.toNat s.pc := by
  rw [stepOutcome, if_neg hend.not_ge, if_neg hlow.not_gt, if_pos ⟨hodd, hp⟩]
  cases hk : s.params.oddFaultKind with
  | fetchOdd => rw [oddFetchKind_of_fetchOdd hk, if_pos rfl]
  | fetch => rw [oddFetchKind_of_fetch hk, if_neg (by decide)]

theorem stepOutcome_of_fetchable {s : State} (h : s.Fetchable) : stepOutcome s = executeOutcome s.fetchedInstr s.afterFetch := by
  obtain ⟨hend, hlow, hodd⟩ := h
  have hpol : ¬ (s.pc.toNat % 2 = 1 ∧ s.params.oddPcPolicy = .fault) := fun ⟨ho, hf⟩ => by
    rw [hodd ho] at hf; exact OddPcPolicy.noConfusion hf
  rw [stepOutcome, if_neg hend.not_ge, if_neg hlow.not_gt, if_neg hpol]
  rfl

theorem step_outcome_status {s : State} (hr : s.status = .running) :
    ∃ t, step s = .next t ∧ t.outcome = stepOutcome s ∧ t.status = statusAfter (stepOutcome s) := by
  rcases step_cases s with ⟨o, hf, _⟩ | ⟨_, hend, hs⟩ | ⟨_, hlow, hs⟩ | ⟨_, hend, hlow, hodd, hp, hs⟩ | ⟨_, hend, hlow, hodd, hs⟩
  · rw [hr] at hf; cases hf
  · rw [stepOutcome_past_end hend]; exact ⟨_, hs, rfl, hr⟩
  · rw [stepOutcome_below hlow]; exact ⟨_, hs, raised_outcome_status s _⟩
  · rw [stepOutcome_odd hend hlow hodd hp]; exact ⟨_, hs, raised_outcome_status s _⟩
  · rw [stepOutcome_of_fetchable ⟨hend, hlow, hodd⟩, hs]
    exact exec_outcome_status s.fetchedInstr (s := s.afterFetch) hr rfl

/-! ## The sticky mark (R71) -/

theorem executeOutcome_ne_unimplemented {i : Instr} (hi : isUnimpl i = false) (s : State) (w : Word) :
    executeOutcome i s ≠ .unimplemented w := by
  cases i with
  | unimplKey | unimplGlyph | unimpl => cases hi
  | ret | call | drw | ldB | ldMemI => simp only [executeOutcome, oob]; split <;> nofun
  | _ => nofun

theorem mark_not_touched {i : Instr} (hi : isUnimpl i = false) : Part.mark ∉ touched i := by
  cases i with
  | unimplKey | unimplGlyph | unimpl => cases hi
  | _ => simp [touched]

/-- An UNIMPL row sets the mark and reports its word. -/
theorem exec_of_isUnimpl {i : Instr} (hi : isUnimpl i = true) (s : State) : ∃ w, exec i s = .next (s.reportUnimpl w) := by
  cases i with
  | unimplKey nnn => exact ⟨_, exec_unimplKey nnn s⟩
  | unimplGlyph x => exact ⟨_, exec_unimplGlyph x s⟩
  | unimpl w => exact ⟨w, exec_unimpl w s⟩
  | _ => cases hi

theorem exec_mark_iff {i : Instr} {s t : State} (hr : s.status = .running) (ho : s.outcome = .ok) (h : exec i s = .next t) :
    t.unimplSeen = true ↔ s.unimplSeen = true ∨ ∃ w, t.outcome = .unimplemented w := by
  cases hi : isUnimpl i with
  | true =>
    obtain ⟨w, hw⟩ := exec_of_isUnimpl hi s
    obtain rfl : s.reportUnimpl w = t := Host.Outcome.next.inj (hw.symm.trans h)
    exact iff_of_true rfl (.inr ⟨w, rfl⟩)
  | false =>
    obtain ⟨u, hu, hout, _⟩ := exec_outcome_status i hr ho
    obtain rfl : u = t := Host.Outcome.next.inj (hu.symm.trans h)
    have hmark : u.unimplSeen = s.unimplSeen := kept_of_exec h (mark_not_touched hi)
    simp only [hmark, hout, executeOutcome_ne_unimplemented hi, exists_const, or_false]

/-- Settles O51: each case of a step returns what the table says of it, and Execute what it says of the instruction. -/
theorem stepReturnsTabulatedOutcome : Obligations.StepReturnsTabulatedOutcome := by
  intro s hr
  obtain ⟨t, h, hout, hst⟩ := step_outcome_status hr
  refine ⟨t, h, hout, ?_⟩
  cases ho : stepOutcome s <;> rw [ho] at hst <;> exact hst

/-- Settles O52: EXHAUSTED and a fetch's fault leave the mark; of the instructions only the UNIMPL rows report
UNIMPLEMENTED, and they alone set it. -/
theorem markRecordsEveryUnimplemented : Obligations.MarkRecordsEveryUnimplemented := by
  intro s t h
  rcases step_next_cases h with rfl | ⟨f, rfl⟩ | ⟨hr, _, hx⟩
  · simp
  · simp
  · exact exec_mark_iff (s := s.afterFetch) hr rfl hx

/-- Settles O7: the two bytes at pc are what the decoder is given. -/
theorem stepRunsTheDecodedInstruction : Obligations.StepRunsTheDecodedInstruction := by
  intro s i hr hend hlow hodd hdec
  obtain rfl : s.fetchedInstr = i := congrArg Prod.fst (Except.ok.inj hdec)
  exact step_of_fetchable hr ⟨hend, hlow, hodd⟩

/-- Settles O8: EXHAUSTED records the outcome alone, so the next step meets the same pc and records it again. -/
theorem fetchPastEndIsExhausted : Obligations.FetchPastEndIsExhausted := by
  intro s hr hend
  have hpc : 4096 ≤ s.pc.toNat + 1 := Nat.succ_le_succ hend
  exact ⟨_, step_past_end hr hpc, rfl, keepsAllBut_setOutcome s _,
    step_past_end (s := s.setOutcome (.exhausted s.pc)) hr hpc⟩

/-- Settles O10: under fault the kind is the one oddFaultKind selects; under fetch the word is read like any other. -/
theorem oddFetchFollowsPolicy : Obligations.OddFetchFollowsPolicy := fun s hr hend hlow hodd =>
  ⟨fun hp => ⟨_, _, step_odd hr hend hlow hodd hp, ⟨rfl, rfl⟩, oddFetchKind_of_fetchOdd, oddFetchKind_of_fetch,
      keepsAllBut_raise s _⟩,
    fun hp => step_of_fetchable hr ⟨hend, hlow, fun _ => hp⟩⟩

/-- Settles O11: the status alone decides the step, and the first step ends the run. -/
theorem faultedIsSticky : Obligations.FaultedIsSticky := by
  intro s o h
  have hs := step_of_faulted h
  exact ⟨hs, fun k => by simp only [runFuel, hs], rfl⟩

/-- Settles O12: the three UNIMPL rows report their words and do nothing else. -/
theorem unimplementedOnlyReports : Obligations.UnimplementedOnlyReports :=
  ⟨fun nnn s => ⟨_, exec_unimplKey nnn s, rfl, rfl, keepsAllBut_reportUnimpl s _⟩,
    fun x s => ⟨_, exec_unimplGlyph x s, rfl, rfl, keepsAllBut_reportUnimpl s _⟩,
    fun w s => ⟨_, exec_unimpl w s, rfl, rfl, keepsAllBut_reportUnimpl s w⟩⟩

/-- Settles O57: reset leaves pc at 0x200, which is fetchable, and the outcome OK that a fetch starts with. -/
theorem firstFetchIsAtProgStart : Obligations.FirstFetchIsAtProgStart := by
  intro m
  have hpc : (State.reset.setMem m).pc.toNat = 0x200 := rfl
  have hfetch : (State.reset.setMem m).Fetchable := ⟨by omega, by omega, fun _ => rfl⟩
  exact step_of_fetchable rfl hfetch

end Sys2Proof.Machine
end

section
/-! PROOF. What no step reads (spec/10_state.md R24 and section 6, spec/60_exceptions.md R124): the timers and the held keys, and, for every instruction but CLS and DRW, the framebuffer. Both follow from one lemma: Execute commutes with any change of those fields. -/

namespace Sys2Proof.Machine

/-! ## The stack instructions and R83's write, one equation for each branch -/

theorem exec_ret_of_empty {s : State} (h : s.sp.val = 0) : exec .ret s = .next (s.raise (.stackUnderflow 0x00EE#16)) :=
  (exec_ret_cases s).elim And.right fun ⟨_, _, hj, _⟩ => absurd hj (by omega)

theorem exec_ret_of_sp {s : State} {j : Fin 16} {depth : Fin 17} (hj : j.val + 1 = s.sp.val) (hd : depth.val = j.val) :
    exec .ret s = .next (({ s with sp := depth } : State).setPc s.stack[j]) := by
  rcases exec_ret_cases s with ⟨h0, _⟩ | ⟨k, deep, hk, hdeep, h⟩
  · omega
  · obtain rfl : k = j := Fin.ext (by omega)
    obtain rfl : deep = depth := Fin.ext (by omega)
    exact h

theorem exec_call_of_full {nnn : Addr} {s : State} (h : s.sp.val = 16) :
    exec (.call nnn) s = .next (s.raise (.stackOverflow (0x2#4 ++ nnn))) :=
  (exec_call_cases nnn s).elim And.right fun ⟨_, _, hlt, _⟩ => absurd hlt (by omega)

/-- The stack with `v` in its slot `j`. -/
def State.setSlot (s : State) (j : Fin 16) (v : Word) (depth : Fin 17) : State :=
  { s with stack := s.stack.set j.val v, sp := depth }

theorem setSlot_stack (s : State) (j : Fin 16) (v : Word) (depth : Fin 17) (k : Fin 16) :
    (s.setSlot j v depth).stack[k] = if k = j then v else s.stack[k] := by
  simp only [State.setSlot, Fin.getElem_fin, Vector.getElem_set, Fin.ext_iff, eq_comm]

theorem keepsAllBut_setSlot (s : State) (j : Fin 16) (v : Word) (depth : Fin 17) :
    KeepsAllBut [.stack] s (s.setSlot j v depth) := keepsAllBut_stack s _ _

theorem exec_call_of_sp {nnn : Addr} {s : State} {j : Fin 16} {depth : Fin 17} (hj : s.sp.val = j.val)
    (hd : depth.val = j.val + 1) :
    exec (.call nnn) s = .next ((s.setSlot j s.pc depth).setPc (addrOperand nnn)) := by
  rcases exec_call_cases nnn s with ⟨h16, _⟩ | ⟨slots, deep, _, h, hdeep, hs⟩
  · omega
  · obtain rfl : deep = depth := Fin.ext (by omega)
    have hslots : slots = s.stack.set j.val s.pc := by
      refine Vector.ext fun k hk => (hs ⟨k, hk⟩).trans ?_
      simp only [hj, Fin.getElem_fin, Vector.getElem_set, eq_comm]
    rw [h, hslots]
    rfl

theorem writeResultFlag_of_flagFirst {s : State} (h : s.params.vfWriteOrder = .flagThenResult) (x : Reg) (rf : Byte × Byte) :
    s.writeResultFlag x rf = (s.writeV regVF rf.2).writeV x rf.1 := by
  simp only [State.writeResultFlag, h]

theorem writeResultFlag_of_resultFirst {s : State} (h : s.params.vfWriteOrder = .resultThenFlag) (x : Reg)
    (rf : Byte × Byte) : s.writeResultFlag x rf = (s.writeV x rf.1).writeV regVF rf.2 := by
  simp only [State.writeResultFlag, h]

/-! ## Changes of the unread fields -/

/-- A change of the timers, the held keys and the framebuffer. -/
structure UnreadChange where
  dt : Byte → Byte
  st : Byte → Byte
  keys : Vector Bool 16 → Vector Bool 16
  fb : Framebuffer → Framebuffer

/-- The state with its unread fields changed. -/
def UnreadChange.apply (u : UnreadChange) (s : State) : State :=
  { s with dt := u.dt s.dt, st := u.st s.st, keys := u.keys s.keys, fb := u.fb s.fb }

/-- The change that sets the timers and the held keys. -/
def UnreadChange.setTimersKeys (d e : Byte) (k : Vector Bool 16) : UnreadChange :=
  { dt := fun _ => d, st := fun _ => e, keys := fun _ => k, fb := id }

/-- The change that replaces the framebuffer alone. -/
def UnreadChange.replaceFb (f : Framebuffer) : UnreadChange := { dt := id, st := id, keys := id, fb := fun _ => f }

theorem skipIf_apply (u : UnreadChange) (s : State) (c : Bool) : (u.apply s).skipIf c = u.apply (s.skipIf c) := by
  cases c <;> rfl

theorem writeResultFlag_apply (u : UnreadChange) (s : State) (x : Reg) (rf : Byte × Byte) :
    (u.apply s).writeResultFlag x rf = u.apply (s.writeResultFlag x rf) := by
  cases ho : s.params.vfWriteOrder with
  | flagThenResult => rw [writeResultFlag_of_flagFirst ho, writeResultFlag_of_flagFirst (s := u.apply s) ho]; rfl
  | resultThenFlag => rw [writeResultFlag_of_resultFirst ho, writeResultFlag_of_resultFirst (s := u.apply s) ho]; rfl

theorem setFb_apply {u : UnreadChange} (hu : u.fb = id) (s : State) (f : Framebuffer) :
    (u.apply s).setFb f = u.apply (s.setFb f) := by
  simp [UnreadChange.apply, State.setFb, hu]

theorem drawn_apply {u : UnreadChange} (hu : u.fb = id) (s : State) (x y : Reg) (n : Nibble) :
    (u.apply s).drawn x y n = s.drawn x y n := by
  have hfb : (u.apply s).fb = s.fb := by simp [UnreadChange.apply, hu]
  rw [State.drawn, hfb]
  rfl

theorem exec_ret_apply (u : UnreadChange) (s : State) : ∃ t, exec .ret s = .next t ∧ exec .ret (u.apply s) = .next (u.apply t) := by
  rcases exec_ret_cases s with ⟨h0, h⟩ | ⟨j, depth, hj, hd, h⟩
  · exact ⟨_, h, exec_ret_of_empty (s := u.apply s) h0⟩
  · exact ⟨_, h, exec_ret_of_sp (s := u.apply s) hj hd⟩

theorem exec_call_apply (u : UnreadChange) (nnn : Addr) (s : State) :
    ∃ t, exec (.call nnn) s = .next t ∧ exec (.call nnn) (u.apply s) = .next (u.apply t) := by
  rcases exec_call_cases nnn s with ⟨h16, h⟩ | ⟨_, depth, hlt, _, hd, _⟩
  · exact ⟨_, h, exec_call_of_full (s := u.apply s) h16⟩
  · exact ⟨_, exec_call_of_sp (j := ⟨s.sp.val, hlt⟩) rfl hd,
      exec_call_of_sp (s := u.apply s) (j := ⟨s.sp.val, hlt⟩) rfl hd⟩

theorem exec_drw_apply {u : UnreadChange} (hu : u.fb = id) (x y : Reg) (n : Nibble) (s : State) :
    ∃ t, exec (.drw x y n) s = .next t ∧ exec (.drw x y n) (u.apply s) = .next (u.apply t) := by
  rcases spriteReadable_or_first_refused s n with hread | ⟨j, hj, hbad, hgood⟩
  · refine ⟨_, exec_drw_of_readable hread, ?_⟩
    rw [exec_drw_of_readable (s := u.apply s) hread, drawn_apply hu, setFb_apply hu]
    rfl
  · exact ⟨_, exec_drw_of_refused hj hbad hgood, exec_drw_of_refused (s := u.apply s) hj hbad hgood⟩

theorem exec_ldB_apply (u : UnreadChange) (x : Reg) (s : State) :
    ∃ t, exec (.ldB x) s = .next t ∧ exec (.ldB x) (u.apply s) = .next (u.apply t) := by
  rcases lt_or_ge (s.effAddr 2) 4096 with h | h
  · exact ⟨_, exec_ldB_of_fits h, exec_ldB_of_fits (s := u.apply s) h⟩
  · exact ⟨_, exec_ldB_past_end h, exec_ldB_past_end (s := u.apply s) h⟩

theorem exec_ldMemI_apply (u : UnreadChange) (x : Reg) (s : State) :
    ∃ t, exec (.ldMemI x) s = .next t ∧ exec (.ldMemI x) (u.apply s) = .next (u.apply t) := by
  rcases lt_or_ge (s.effAddr x.toNat) 4096 with h | h
  · exact ⟨_, exec_ldMemI_of_fits h, exec_ldMemI_of_fits (s := u.apply s) h⟩
  · exact ⟨_, exec_ldMemI_past_end h, exec_ldMemI_past_end (s := u.apply s) h⟩

/-- Execute commutes with a change of the unread fields, of the framebuffer only where the instruction does not use it. -/
theorem exec_apply (u : UnreadChange) (i : Instr) (s : State) (hfb : Part.fb ∈ touched i → u.fb = id) :
    ∃ t, exec i s = .next t ∧ exec i (u.apply s) = .next (u.apply t) := by
  cases i with
  | cls => exact ⟨_, exec_cls s, congrArg Host.Outcome.next (setFb_apply (hfb (by simp [touched])) s Framebuffer.clear)⟩
  | ret => exact exec_ret_apply u s
  | call nnn => exact exec_call_apply u nnn s
  | drw x y n => exact exec_drw_apply (hfb (by simp [touched])) x y n s
  | ldB x => exact exec_ldB_apply u x s
  | ldMemI x => exact exec_ldMemI_apply u x s
  | seImm | sneImm | seReg | sneReg => exact ⟨_, rfl, congrArg _ (skipIf_apply u s _)⟩
  | addReg | sub | shr | subn | shl => exact ⟨_, rfl, congrArg _ (writeResultFlag_apply u s _ _)⟩
  | _ => exact ⟨_, rfl, rfl⟩

theorem exec_apply_of_next {u : UnreadChange} {i : Instr} {s t : State} (hfb : Part.fb ∈ touched i → u.fb = id)
    (h : exec i s = .next t) : exec i (u.apply s) = .next (u.apply t) := by
  obtain ⟨t', ht, hu⟩ := exec_apply u i s hfb
  obtain rfl : t' = t := Host.Outcome.next.inj (ht.symm.trans h)
  exact hu

/-- Settles O47: the status, pc, parameters and memory that decide a step's case are not among the changed fields, and
Execute commutes with the change. -/
theorem stepsDoNotReadTimersOrKeys : Obligations.StepsDoNotReadTimersOrKeys := by
  intro s d e k
  let u := UnreadChange.setTimersKeys d e k
  change step (u.apply s) = _
  rcases step_cases s with ⟨o, hf, hs⟩ | ⟨hr, hend, hs⟩ | ⟨hr, hlow, hs⟩ | ⟨hr, hend, hlow, hodd, hp, hs⟩ |
    ⟨hr, hend, hlow, hodd, hs⟩
  · rw [hs, step_of_faulted (s := u.apply s) hf]
  · rw [hs, step_past_end (s := u.apply s) hr hend]; rfl
  · rw [hs, step_below (s := u.apply s) hr hlow]; rfl
  · rw [hs, step_odd (s := u.apply s) hr hend hlow hodd hp]; rfl
  · obtain ⟨t, ht⟩ := exec_next s.fetchedInstr s.afterFetch
    rw [step_of_fetchable hr ⟨hend, hlow, hodd⟩, ht, step_of_fetchable (s := u.apply s) hr ⟨hend, hlow, hodd⟩]
    exact exec_apply_of_next (u := u) (fun _ => rfl) ht

/-- Settles O48: the framebuffer is a part that only CLS and DRW may change, and Execute of the others commutes with
replacing it. -/
theorem onlyClsAndDrwUseFramebuffer : Obligations.OnlyClsAndDrwUseFramebuffer := by
  intro i s t h hc hd
  have hfb := fb_not_touched hc hd
  exact ⟨kept_of_exec h hfb, fun f => exec_apply_of_next (u := .replaceFb f) (fun hmem => absurd hmem hfb) h⟩

end Sys2Proof.Machine
end

section
/-! PROOF. Control transfer and the invariant (spec/10_state.md R20 to R23, spec/41_control_flow.md R73, R75): the two stack instructions, which instructions move pc and how far, and what every step and host operation keeps. -/

namespace Sys2Proof.Machine

/-! ## RET and CALL -/

theorem keepsAllBut_stack_pc {s t : State} (h : KeepsAllBut [.stack] s t) (a : Word) :
    KeepsAllBut [.pc, .stack] s (t.setPc a) :=
  (h.mono (by simp)).trans ((keepsAllBut_setPc t a).mono (by simp))

/-- Settles O13: the top slot's value goes to pc and SP is one lower, or nothing happens but the fault. -/
theorem retPopsOrUnderflows : Obligations.RetPopsOrUnderflows := by
  refine ⟨by decide, fun s j hj => ?_, fun s h0 => ⟨_, exec_ret_of_empty h0, ⟨rfl, rfl⟩, keepsAllBut_raise s _⟩⟩
  let depth : Fin 17 := ⟨j.val, by omega⟩
  exact ⟨_, exec_ret_of_sp (depth := depth) hj.symm rfl, rfl, rfl, fun _ => rfl,
    keepsAllBut_stack_pc (keepsAllBut_stack s s.stack depth) _⟩

/-- Settles O15: the slot at SP takes pc and SP is one higher, or nothing happens but the fault. -/
theorem callPushesOrOverflows : Obligations.CallPushesOrOverflows := by
  refine ⟨fun w h => decode_of_class2 (class_of_mask w 0x2#4 h), fun nnn s j hj => ?_,
    fun nnn s h16 => ⟨_, exec_call_of_full h16, ⟨rfl, rfl⟩, keepsAllBut_raise s _⟩⟩
  let depth : Fin 17 := ⟨j.val + 1, by omega⟩
  refine ⟨_, exec_call_of_sp (depth := depth) hj rfl, toNat_addrOperand nnn, rfl, ?_, fun k hk => ?_,
    keepsAllBut_stack_pc (keepsAllBut_setSlot s j s.pc depth) _⟩
  · exact (setSlot_stack s j s.pc depth j).trans (if_pos rfl)
  · exact (setSlot_stack s j s.pc depth k).trans (if_neg hk)

/-- CALL and then RET leave the state as it was, but for the slot that CALL wrote. -/
theorem exec_call_ret {nnn : Addr} {s : State} {j : Fin 16} (hj : s.sp.val = j.val) :
    ∃ t, exec (.call nnn) s = .next t ∧ exec .ret t = .next (s.setSlot j s.pc s.sp) := by
  let depth : Fin 17 := ⟨j.val + 1, by omega⟩
  refine ⟨_, exec_call_of_sp (depth := depth) hj rfl, ?_⟩
  rw [exec_ret_of_sp (j := j) (depth := s.sp) rfl hj, setPc_stack, setSlot_stack, if_pos rfl]
  rfl

/-- Settles O17: RET takes back the pc that CALL wrote to the slot at SP. -/
theorem callThenRetReturns : Obligations.CallThenRetReturns := by
  intro nnn s hlt
  let j : Fin 16 := ⟨s.sp.val, hlt⟩
  obtain ⟨t, hcall, hret⟩ := exec_call_ret (nnn := nnn) (s := s) (j := j) rfl
  refine ⟨t, _, hcall, hret, rfl, rfl, fun k hk => ?_, keepsAllBut_setSlot s j s.pc s.sp⟩
  exact (setSlot_stack s j s.pc s.sp k).trans (if_neg fun h => hk (congrArg Fin.val h))

/-! ## Where an instruction leaves pc -/

/-- The instructions whose target is not pc or the skip's pc + 2. -/
def isJump : Instr → Bool
  | .ret | .jp _ | .call _ | .jpV0 _ => true
  | _ => false

theorem skipIf_pc_cases (s : State) (c : Bool) : (s.skipIf c).pc = s.pc ∨ (s.skipIf c).pc = s.pc + 2#16 := by
  cases c
  · exact .inl rfl
  · exact .inr rfl

theorem pc_of_exec_of_not_jump {i : Instr} {s t : State} (hi : isJump i = false) (h : exec i s = .next t) :
    t.pc = s.pc ∨ t.pc = s.pc + 2#16 := by
  by_cases hp : Part.pc ∈ touched i
  case neg => exact .inl (kept_of_exec h hp)
  cases i with
  | seImm | sneImm | seReg | sneReg => cases h; exact skipIf_pc_cases s _
  | ret | jp | call | jpV0 => cases hi
  | _ => simp [touched] at hp

/-- 2 more than a pc that a step can leave does not wrap. -/
theorem toNat_pc_add_two {a : Word} (h : a.toNat ≤ 0x1000) : (a + 2#16).toNat = a.toNat + 2 := by
  rw [BitVec.toNat_add]
  exact Nat.mod_eq_of_lt (by simp only [BitVec.toNat_ofNat]; omega)

theorem isJump_cases {i : Instr} (h : isJump i = true) :
    i = .ret ∨ (∃ nnn, i = .jp nnn) ∨ (∃ nnn, i = .call nnn) ∨ (∃ nnn, i = .jpV0 nnn) := by
  cases i with
  | ret => exact .inl rfl
  | jp nnn => exact .inr (.inl ⟨nnn, rfl⟩)
  | call nnn => exact .inr (.inr (.inl ⟨nnn, rfl⟩))
  | jpV0 nnn => exact .inr (.inr (.inr ⟨nnn, rfl⟩))
  | _ => cases h

/-- Settles O9: a low pc is checked before anything is read; and an instruction that does not jump leaves pc where it
was or 2 further, which is no lower. -/
theorem fetchBelowProgramRaises : Obligations.FetchBelowProgramRaises := by
  refine ⟨fun s hr hlow => ⟨_, step_below hr hlow, ⟨rfl, rfl⟩, keepsAllBut_raise s _⟩, fun i s t h hlow hhigh hpc => ?_⟩
  refine isJump_cases (by_contra fun hi => ?_)
  rcases pc_of_exec_of_not_jump (Bool.not_eq_true _ ▸ hi) h with he | he
  · rw [he] at hpc; omega
  · rw [he, toNat_pc_add_two hhigh] at hpc; omega

/-! ## The invariant -/

/-- Every return address held is at most 0x1000, the last conjunct of `StateInv`. -/
def ReturnsBounded (s : State) : Prop := ∀ j : Fin 16, j.val < s.sp.val → s.stack[j].toNat ≤ 0x1000

theorem exec_pc_le {i : Instr} {s t : State} (h : exec i s = .next t) (hpc : s.pc.toNat ≤ 0x1000) (hret : ReturnsBounded s) :
    t.pc.toNat ≤ 0x10FE := by
  cases hi : isJump i with
  | false =>
    rcases pc_of_exec_of_not_jump hi h with he | he
    · rw [he]; omega
    · rw [he, toNat_pc_add_two hpc]; omega
  | true =>
    rcases isJump_cases hi with rfl | ⟨nnn, rfl⟩ | ⟨nnn, rfl⟩ | ⟨nnn, rfl⟩
    · rcases exec_ret_cases s with ⟨_, hx⟩ | ⟨j, depth, hj, _, hx⟩
      · cases hx.symm.trans h
        rw [raise_pc]; omega
      · cases hx.symm.trans h
        have hslot := hret j (by omega)
        rw [setPc_pc]; omega
    · cases (exec_jp nnn s).symm.trans h
      rw [setPc_pc, toNat_addrOperand]; omega
    · rcases exec_call_cases nnn s with ⟨_, hx⟩ | ⟨slots, depth, _, hx, _, _⟩
      · cases hx.symm.trans h
        rw [raise_pc]; omega
      · cases hx.symm.trans h
        rw [setPc_pc, toNat_addrOperand]; omega
    · cases (exec_jpV0 nnn s).symm.trans h
      rw [setPc_pc, toNat_zextByte_add_addrOperand]
      exact byte_add_addr_le _ _

theorem returnsBounded_of_kept {s t : State} (h : Kept .stack s t) (hret : ReturnsBounded s) : ReturnsBounded t := by
  obtain ⟨hsp, hslots⟩ := h
  intro j hj
  rw [hslots j]
  exact hret j (hsp ▸ hj)

theorem exec_returnsBounded {i : Instr} {s t : State} (h : exec i s = .next t) (hpc : s.pc.toNat ≤ 0x1000)
    (hret : ReturnsBounded s) : ReturnsBounded t := by
  by_cases hp : Part.stack ∈ touched i
  case neg => exact returnsBounded_of_kept (kept_of_exec h hp) hret
  cases i with
  | ret =>
    rcases exec_ret_cases s with ⟨_, hx⟩ | ⟨j, depth, hj, hd, hx⟩
    · cases hx.symm.trans h; exact hret
    · cases hx.symm.trans h
      exact fun k hk => hret k (by simp only [setPc_sp] at hk; omega)
  | call nnn =>
    rcases exec_call_cases nnn s with ⟨_, hx⟩ | ⟨slots, depth, _, hx, hd, hs⟩
    · cases hx.symm.trans h; exact hret
    · cases hx.symm.trans h
      intro k hk
      rw [setPc_stack, hs k]
      split
      · exact hpc
      · exact hret k (by simp only [setPc_sp] at hk; omega)
  | _ => simp [touched] at hp

@[simp] theorem skipIf_mem (s : State) (c : Bool) : (s.skipIf c).mem = s.mem := by
  cases c <;> rfl

@[simp] theorem writeResultFlag_mem (s : State) (x : Reg) (rf : Byte × Byte) : (s.writeResultFlag x rf).mem = s.mem := by
  rw [writeResultFlag_eq]

/-- What an instruction does to memory: nothing, or a store of bytes at rising addresses. -/
theorem exec_mem_cases {i : Instr} {s t : State} (h : exec i s = .next t) :
    t.mem = s.mem ∨ ∃ vs, t.mem = s.mem.copyFrom (s.effAddr 0) vs := by
  cases i with
  | ret => rcases exec_ret_cases s with ⟨_, hx⟩ | ⟨_, _, _, _, hx⟩ <;> cases hx.symm.trans h <;> exact .inl rfl
  | call nnn => rcases exec_call_cases nnn s with ⟨_, hx⟩ | ⟨_, _, _, hx, _⟩ <;> cases hx.symm.trans h <;> exact .inl rfl
  | drw x y n => rcases exec_drw_cases x y n s with ⟨_, hx⟩ | hx <;> cases hx.symm.trans h <;> exact .inl rfl
  | ldB x => rcases exec_ldB_cases x s with hx | hx <;> cases hx.symm.trans h <;> exact .inr ⟨_, rfl⟩
  | ldMemI x => rcases exec_ldMemI_cases x s with hx | hx <;> cases hx.symm.trans h <;> exact .inr ⟨_, rfl⟩
  | seImm | sneImm | seReg | sneReg => cases h; exact .inl (skipIf_mem s _)
  | addReg | sub | shr | subn | shl => cases h; exact .inl (writeResultFlag_mem s _ _)
  | _ => cases h; exact .inl rfl

theorem exec_mem_wf {i : Instr} {s t : State} (h : exec i s = .next t) (hwf : s.mem.wf = true) : t.mem.wf = true := by
  rcases exec_mem_cases h with he | ⟨vs, he⟩
  · rw [he]; exact hwf
  · rw [he]; exact wf_copyFrom _ vs hwf

/-- Execute keeps the invariant from every state a fetch can leave: the fetch keeps pc within 0x1000. -/
theorem exec_stateInv {i : Instr} {s t : State} (h : exec i s = .next t) (hpc : s.pc.toNat ≤ 0x1000) (hinv : StateInv s) :
    StateInv t := by
  obtain ⟨hwf, _, hret⟩ := hinv
  exact ⟨exec_mem_wf h hwf, exec_pc_le h hpc hret, exec_returnsBounded h hpc hret⟩

theorem afterFetch_pc_le {s : State} (h : s.Fetchable) : s.afterFetch.pc.toNat ≤ 0x1000 := by
  obtain ⟨hend, _, _⟩ := h
  have hpc : s.afterFetch.pc.toNat = s.pc.toNat + 2 := toNat_pc_add_two (by omega)
  omega

theorem afterFetch_stateInv {s : State} (h : s.Fetchable) (hinv : StateInv s) : StateInv s.afterFetch := by
  obtain ⟨hwf, _, hret⟩ := hinv
  exact ⟨hwf, (afterFetch_pc_le h).trans (by decide), hret⟩

/-- Settles O54: a step that runs nothing changes neither memory, pc nor the stack, and Execute keeps the invariant from
the state after the fetch. -/
theorem everyStepKeepsInvariant : Obligations.EveryStepKeepsInvariant := by
  intro s t hinv h
  rcases step_next_cases h with rfl | ⟨f, rfl⟩ | ⟨_, hfetch, hx⟩
  · exact hinv
  · exact hinv
  · exact exec_stateInv hx (afterFetch_pc_le hfetch) (afterFetch_stateInv hfetch hinv)

/-- The invariant holds where memory lists nothing, pc is at most 0x10FE and no return address is held. -/
theorem stateInv_of_empty {s : State} (hmem : s.mem = []) (hpc : s.pc.toNat ≤ 0x10FE) (hsp : s.sp = 0) : StateInv s := by
  refine ⟨by rw [hmem]; rfl, hpc, fun j hj => ?_⟩
  rw [hsp] at hj
  exact absurd hj (Nat.not_lt_zero _)

/-- Settles O55: reset lists no byte, puts pc at 0x200 and empties the stack. -/
theorem resetMeetsInvariant : Obligations.ResetMeetsInvariant := stateInv_of_empty rfl (by decide) rfl

theorem decDelay_cases (s : State) : s.decDelay = { s with dt := s.dt - 1#8 } ∧ s.dt ≠ 0#8 ∨ s.decDelay = s ∧ s.dt = 0#8 := by
  by_cases h : s.dt = 0#8
  · exact .inr ⟨if_pos h, h⟩
  · exact .inl ⟨if_neg h, h⟩

theorem decSound_cases (s : State) :
    s.decSound.1 = { s with st := s.st - 1#8 } ∧ s.st ≠ 0#8 ∨ s.decSound.1 = s ∧ s.st = 0#8 := by
  by_cases h : s.st = 0#8
  · exact .inr ⟨if_pos h, h⟩
  · exact .inl ⟨if_neg h, h⟩

/-- Settles O56: reset() is reset's memory, pc and stack, load() builds a canonical memory and keeps the rest, and the
timers and keys are no part of the invariant. -/
theorem hostOperationsKeepInvariant : Obligations.HostOperationsKeepInvariant := by
  intro s bytes held hinv
  refine ⟨stateInv_of_empty rfl (by decide : (0x0200#16).toNat ≤ 0x10FE) rfl, ?_, ?_, ?_, hinv⟩
  · obtain ⟨_, hpc, hret⟩ := hinv
    exact ⟨wf_copyFrom Config.progStart bytes rfl, hpc, hret⟩
  · rcases decDelay_cases s with ⟨he, _⟩ | ⟨he, _⟩ <;> rw [he] <;> exact hinv
  · rcases decSound_cases s with ⟨he, _⟩ | ⟨he, _⟩ <;> rw [he] <;> exact hinv

end Sys2Proof.Machine
end

section
/-! PROOF. The ALU instructions with a flag (spec/43_alu.md R83, R90 to R94), ADD I and RND: the exact value of each result and flag, and, for the flagged ones, R83's write of both. -/

namespace Sys2Proof.Machine

/-! ## Results and flags -/

theorem flagOf_decide (c : Prop) [Decidable c] : flagOf (decide c) = if c then 1#8 else 0#8 := by
  by_cases h : c <;> simp [flagOf, h]

theorem toNat_flagOf_getLsbD (b : Byte) (k : Nat) : (flagOf (b.getLsbD k)).toNat = b.toNat / 2 ^ k % 2 := by
  rw [← BitVec.testBit_toNat, Nat.testBit_eq_decide_div_mod_eq, flagOf_decide]
  split <;> simp <;> omega

theorem addCarry_value (a b : Byte) : (addCarry a b).1.toNat = (a.toNat + b.toNat) % 256 := by
  simp [addCarry]

/-- The low byte of an exact difference (R91, R93). -/
theorem subFlag_value (a b : Byte) : ((subFlag a b).1.toNat : Int) = ((a.toNat : Int) - b.toNat) % 256 := by
  have ha : a.toNat < 256 := a.isLt
  have hb : b.toNat < 256 := b.isLt
  rw [subFlag, BitVec.toNat_sub]
  omega

theorem shiftRight_value (a : Byte) : (shiftRight a).1.toNat = a.toNat / 2 := by
  simp [shiftRight, Nat.shiftRight_eq_div_pow]

theorem shiftRight_flag (a : Byte) : (shiftRight a).2.toNat = a.toNat % 2 := by
  rw [shiftRight, toNat_flagOf_getLsbD, pow_zero, Nat.div_one]

theorem shiftLeft_value (src : ShlFlagSource) (a : Byte) : (shiftLeft src a).1.toNat = 2 * a.toNat % 256 := by
  simp [shiftLeft, Nat.shiftLeft_eq, Nat.mul_comm]

theorem shiftLeft_flag_msb (a : Byte) : (shiftLeft .msb a).2.toNat = a.toNat / 128 := by
  have ha : a.toNat < 256 := a.isLt
  have hf : (shiftLeft .msb a).2.toNat = a.toNat / 2 ^ 7 % 2 := toNat_flagOf_getLsbD a 7
  omega

theorem shiftLeft_flag_lsb (a : Byte) : (shiftLeft .lsb a).2.toNat = a.toNat % 2 := by
  have hf : (shiftLeft .lsb a).2.toNat = a.toNat / 2 ^ 0 % 2 := toNat_flagOf_getLsbD a 0
  omega

/-- Settles O26: the word selects the row, and sum and carry are written as R83 says. -/
theorem addRegSumsWithCarry : Obligations.AddRegSumsWithCarry :=
  ⟨fun _ h => decode_of_mask8 decodeClass8_of_n4 h, fun x y s => ⟨_, _, _, exec_addReg x y s, addCarry_value _ _,
    flagOf_decide _, resultAndFlagWritten_writeResultFlag s x _⟩⟩

/-- Settles O27: the word selects the row, and difference and strict flag are written as R83 says. -/
theorem subSubtractsWithStrictFlag : Obligations.SubSubtractsWithStrictFlag :=
  ⟨fun _ h => decode_of_mask8 decodeClass8_of_n5 h, fun x y s => ⟨_, _, _, exec_sub x y s, subFlag_value _ _,
    flagOf_decide _, resultAndFlagWritten_writeResultFlag s x _⟩⟩

/-- Settles O28: the word selects the row, whose meaning reads V[x] alone. -/
theorem shrHalvesWithLowBit : Obligations.ShrHalvesWithLowBit :=
  ⟨fun _ h => decode_of_mask8 decodeClass8_of_n6 h, fun x y s => ⟨_, _, _, (exec_shr x y s).trans (execShr_eq x s),
    shiftRight_value _, shiftRight_flag _, resultAndFlagWritten_writeResultFlag s x _⟩⟩

/-- Settles O29: SUB's result and flag with the operands exchanged. -/
theorem subnSubtractsReversed : Obligations.SubnSubtractsReversed :=
  ⟨fun _ h => decode_of_mask8 decodeClass8_of_n7 h, fun x y s => ⟨_, _, _, exec_subn x y s, subFlag_value _ _,
    flagOf_decide _, resultAndFlagWritten_writeResultFlag s x _⟩⟩

/-- Settles O30: the word selects the row, and SHL_FLAG_SOURCE selects the bit. -/
theorem shlDoublesWithSelectedBit : Obligations.ShlDoublesWithSelectedBit :=
  ⟨fun _ h => decode_of_mask8 decodeClass8_of_nE h, fun x y s => ⟨_, _, _, (exec_shl x y s).trans (execShl_eq x s),
    shiftLeft_value _ _, fun hsrc => hsrc ▸ shiftLeft_flag_msb _, fun hsrc => hsrc ▸ shiftLeft_flag_lsb _,
    resultAndFlagWritten_writeResultFlag s x _⟩⟩

/-! ## The write order (R83, decision D7) -/

/-- The state under a write order. -/
def State.withOrder (s : State) (o : VfWriteOrder) : State := { s with params := { s.params with vfWriteOrder := o } }

/-- With a destination other than VF, every register after R83's write, under either order. -/
theorem readV_writeResultFlag (s : State) {x : Reg} (hx : x ≠ regVF) (rf : Byte × Byte) (r : Reg) :
    (s.writeResultFlag x rf).readV r = if r = x then rf.1 else if r = regVF then rf.2 else s.readV r := by
  by_cases hrx : r = x
  · rw [if_pos hrx, hrx, writeResultFlag_dest s rf hx]
  · by_cases hrf : r = regVF
    · rw [if_neg hrx, if_pos hrf, hrf, writeResultFlag_flag s rf hx]
    · rw [if_neg hrx, if_neg hrf, writeResultFlag_other s rf hrx hrf]

/-- An instruction that ends in R83's write of the same result and flag under both orders leaves the same registers. -/
theorem same_registers_of_writeResultFlag {i : Instr} {x : Reg} {rf : Byte × Byte} {s : State} (hx : x ≠ regVF)
    (h : ∀ o, exec i (s.withOrder o) = .next ((s.withOrder o).writeResultFlag x rf)) :
    ∃ t u, exec i (s.withOrder .flagThenResult) = .next t ∧ exec i (s.withOrder .resultThenFlag) = .next u ∧
      ∀ r : Reg, t.readV r = u.readV r :=
  ⟨_, _, h _, h _, fun r => by rw [readV_writeResultFlag _ hx, readV_writeResultFlag _ hx]; rfl⟩

/-- Settles O32: result and flag do not depend on the order, and neither does any register after R83's write. -/
theorem writeOrderMattersOnlyAtVF : Obligations.WriteOrderMattersOnlyAtVF := by
  intro x y s hx
  simp only [List.forall_mem_cons]
  exact ⟨same_registers_of_writeResultFlag (rf := addCarry (s.readV x) (s.readV y)) hx fun o => exec_addReg x y (s.withOrder o),
    same_registers_of_writeResultFlag (rf := subFlag (s.readV x) (s.readV y)) hx fun o => exec_sub x y (s.withOrder o),
    same_registers_of_writeResultFlag (rf := shiftRight (s.readV x)) hx fun o => execShr_eq x (s.withOrder o),
    same_registers_of_writeResultFlag (rf := subFlag (s.readV y) (s.readV x)) hx fun o => exec_subn x y (s.withOrder o),
    same_registers_of_writeResultFlag (rf := shiftLeft s.params.shlFlagSource (s.readV x)) hx
      fun o => execShl_eq x (s.withOrder o),
    List.forall_mem_nil _⟩

/-! ## ADD I and RND -/

/-- Settles O34: the class and second level select ADD I, Vx, which writes a 16-bit sum to I. -/
theorem addIWrapsAt16Bits : Obligations.AddIWrapsAt16Bits := by
  refine ⟨fun _ h => decode_of_maskF decodeClassF_of_kk1E h, fun x s => ⟨_, exec_addI x s, ?_, keepsAllBut_setI s _⟩⟩
  rw [setI_I, BitVec.toNat_add, toNat_zextByte]

theorem and_and_not_self (b m : Byte) : (b &&& m) &&& ~~~m = 0#8 := by
  rw [BitVec.and_assoc, BitVec.and_not_self]
  exact BitVec.and_zero

/-- Settles O40: class C selects RND, which masks the free byte of the one draw it makes. -/
theorem rndMasksOneDraw : Obligations.RndMasksOneDraw := by
  refine ⟨fun w h => decode_of_classC (class_of_mask w 0xC#4 h), fun x kk s => ?_⟩
  have hx : (s.draw8.2.writeV x (s.draw8.1 &&& kk)).readV x = Config.randomByte s.draws &&& kk := readV_writeV_self _ x _
  refine ⟨_, exec_rnd x kk s, hx, by rw [hx]; exact and_and_not_self _ kk, rfl, regsKeptBut_writeV _ x _, ?_⟩
  exact ((keepsAllBut_draw8 s).mono (by simp)).trans ((keepsAllBut_writeV _ x _).mono (by simp))

end Sys2Proof.Machine
end

section
/-! PROOF. run() under fuel (spec/40_cycle.md R69, spec/70_reset_and_hazards.md R140): what one more unit of fuel does, by the outcome of the step it pays for. -/

namespace Sys2Proof.Machine

theorem runFuel_of_faulted {s : State} {o : FatalOutcome} (h : step s = .fault (.engineFaulted o)) (k : Nat) :
    runFuel (k + 1) s = some (.fatal o, s) := by
  simp only [runFuel, h]

/-- The run goes on after OK and UNIMPLEMENTED. -/
theorem runFuel_of_goes_on {s t : State} (h : step s = .next t) (ho : t.outcome = .ok ∨ ∃ w, t.outcome = .unimplemented w)
    (k : Nat) : runFuel (k + 1) s = runFuel k t := by
  rcases ho with ho | ⟨w, ho⟩ <;> simp only [runFuel, h, ho]

/-- The run ends with EXHAUSTED and with a fatal outcome. -/
theorem runFuel_of_final {s t : State} (h : step s = .next t)
    (ho : (∃ p, t.outcome = .exhausted p) ∨ ∃ f, t.outcome = .fatal f) (k : Nat) :
    runFuel (k + 1) s = some (t.outcome, t) := by
  rcases ho with ⟨p, ho⟩ | ⟨f, ho⟩ <;> simp only [runFuel, h, ho]

/-- A step answers the host's fault or a next state, never a refusal. -/
theorem step_answers (s : State) : (∃ o, step s = .fault (.engineFaulted o)) ∨ ∃ t, step s = .next t := by
  cases hs : s.status with
  | faulted o => exact .inl ⟨o, step_of_faulted hs⟩
  | running => exact .inr ((step_outcome_status hs).imp fun _ h => h.1)

theorem outcome_cases (o : StepOutcome) :
    (o = .ok ∨ ∃ w, o = .unimplemented w) ∨ ((∃ p, o = .exhausted p) ∨ ∃ f, o = .fatal f) := by
  cases o <;> simp

/-- Settles O53, by induction on the fuel: the step that ends the run ends it under any more fuel. -/
theorem runReturnsOnlyFinalOutcomes : Obligations.RunReturnsOnlyFinalOutcomes := by
  intro k
  induction k with
  | zero => intro s t o h; exact absurd h (Option.some_ne_none _).symm
  | succ k ih =>
    intro s t o h
    simp only [Nat.add_right_comm k 1]
    rcases step_answers s with ⟨f, hs⟩ | ⟨u, hs⟩
    · rw [runFuel_of_faulted hs] at h
      cases h
      exact ⟨.inr ⟨f, rfl⟩, fun m => runFuel_of_faulted hs _⟩
    · rcases outcome_cases u.outcome with ho | ho
      · simp only [runFuel_of_goes_on hs ho] at h ⊢
        exact ih u t o h
      · simp only [runFuel_of_final hs ho] at h ⊢
        cases h
        exact ⟨ho, fun _ => rfl⟩

end Sys2Proof.Machine
end

section
/-! PROOF. The stores and the checked accesses (spec/20_memory.md R37, R38, R47, spec/44_address_memory.md R99 to R101, spec/46_display.md R109): what a store leaves at every address, whether or not all of its bytes fit, and what each access refuses. -/

namespace Sys2Proof.Machine

/-! ## The operand sequences -/

theorem getElem?_regRange (s : State) {x j : Reg} (hj : j.toNat ≤ x.toNat) :
    (s.regRange x)[j.toNat]? = some (s.readV j) := by
  have hlt : j.toNat < (s.regRange x).length := by rw [length_regRange]; exact Nat.lt_succ_of_le hj
  rw [List.getElem?_eq_getElem hlt]
  simp only [State.regRange, List.getElem_take, Vector.getElem_toList]
  rfl

/-! ## What a store leaves at every address -/

/-- A byte of the store that lies below the end of memory is written. -/
theorem get_stored {s : State} {vs : List Byte} {j : Nat} {v : Byte} (hj : vs[j]? = some v) (hend : s.effAddr j < 4096) :
    (s.stored vs).mem.get (s.effAddr j) = v := by
  obtain ⟨hlen, hv⟩ := List.getElem?_eq_some_iff.1 hj
  have hoff : s.effAddr j - s.effAddr 0 = j := Nat.add_sub_cancel_left (n := s.I.toNat) (m := j)
  have hin : s.effAddr 0 ≤ s.effAddr j ∧ s.effAddr j < 4096 ∧ s.effAddr j - s.effAddr 0 < vs.length :=
    ⟨Nat.add_le_add_left j.zero_le _, hend, by rw [hoff]; exact hlen⟩
  rw [State.stored, setMem_mem, get_copyFrom, dif_pos hin]
  simp only [hoff, hv]

/-- A byte that no byte of the store reaches, below the end of memory, is kept. -/
theorem get_stored_of_outside {s : State} {vs : List Byte} {b : Nat}
    (h : b < s.effAddr 0 ∨ 4096 ≤ b ∨ s.effAddr 0 + vs.length ≤ b) : (s.stored vs).mem.get b = s.mem.get b := by
  rw [State.stored, setMem_mem, get_copyFrom, dif_neg (by omega)]

theorem bytesKeptOutside_stored (s : State) (vs : List Byte) :
    BytesKeptOutside (s.effAddr 0) vs.length s (s.stored vs) :=
  fun _ hb => get_stored_of_outside (hb.imp_right .inr)

/-- A store that runs past the end writes only below it. -/
theorem bytesKeptOutside_stored_past_end (s : State) (vs : List Byte) :
    BytesKeptOutside (s.effAddr 0) (4096 - s.effAddr 0) s (s.stored vs) :=
  fun _ hb => get_stored_of_outside (hb.imp_right fun h => .inl (by omega))

theorem get_stored_regRange {s : State} {x j : Reg} (hj : j.toNat ≤ x.toNat) (hend : s.effAddr j.toNat < 4096) :
    (s.stored (s.regRange x)).mem.get (s.effAddr j.toNat) = s.readV j :=
  get_stored (getElem?_regRange s hj) hend

/-- A decimal digit that is stored is read back exactly (R99). -/
theorem get_stored_digit {s : State} {b : Byte} {j d : Nat} (hj : (bcdDigits b)[j]? = some (BitVec.ofNat 8 d))
    (hd : d ≤ b.toNat) (hend : s.effAddr j < 4096) : ((s.stored (bcdDigits b)).mem.get (s.effAddr j)).toNat = d := by
  rw [get_stored hj hend, BitVec.toNat_ofNat]
  exact Nat.mod_eq_of_lt (hd.trans_lt b.isLt)

theorem tens_digit_le (n : Nat) : n / 10 % 10 ≤ n := (Nat.mod_le _ _).trans (Nat.div_le_self _ _)

theorem effAddr_le {s : State} {j k : Nat} (h : j ≤ k) : s.effAddr j ≤ s.effAddr k := Nat.add_le_add_left h _

/-- Settles O35: the three digits are the store, and all three fit. -/
theorem ldBStoresDigits : Obligations.LdBStoresDigits := by
  refine ⟨fun _ h => decode_of_maskF decodeClassF_of_kk33 h, fun x s hend => ⟨_, exec_ldB_of_fits hend, ?_⟩⟩
  exact ⟨get_stored_digit rfl (Nat.div_le_self _ _) ((effAddr_le (by decide)).trans_lt hend),
    get_stored_digit rfl (tens_digit_le _) ((effAddr_le (by decide)).trans_lt hend),
    get_stored_digit rfl (Nat.mod_le _ _) hend, bytesKeptOutside_stored s (bcdDigits (s.readV x)), keepsAllBut_stored s _⟩

/-- Settles O36: V0 to V[x] are the store, and all of them fit. -/
theorem ldMemIStoresRegisters : Obligations.LdMemIStoresRegisters := by
  refine ⟨fun _ h => decode_of_maskF decodeClassF_of_kk55 h, fun x s hend => ⟨_, exec_ldMemI_of_fits hend, fun j hj => ?_, ?_,
    keepsAllBut_stored s _⟩⟩
  · exact get_stored_regRange hj ((effAddr_le hj).trans_lt hend)
  · rw [← length_regRange s x]; exact bytesKeptOutside_stored s _

/-- Settles O37: the bytes below the end are written as by a store that fits, and then the fault is taken. -/
theorem storesPastEndWriteLowerBytes : Obligations.StoresPastEndWriteLowerBytes := by
  constructor
  · intro x s hend
    exact ⟨_, exec_ldB_past_end hend, ⟨rfl, rfl⟩, get_stored_digit rfl (Nat.div_le_self _ _),
      get_stored_digit rfl (tens_digit_le _), bytesKeptOutside_stored_past_end s _, keepsAllBut_stored_raise s _ _⟩
  · intro x s hend
    refine ⟨_, exec_ldMemI_past_end hend, ⟨rfl, rfl⟩, fun j hj => ?_, bytesKeptOutside_stored_past_end s _,
      keepsAllBut_stored_raise s _ _⟩
    have hlt : s.effAddr j.toNat < s.effAddr x.toNat := hj.trans_le hend
    exact get_stored_regRange (Nat.le_of_lt (Nat.lt_of_add_lt_add_left hlt)) hj

/-- Settles O38: the store leaves V0 at I and V1 at I + 1, and those are the bytes a fetch from I reads. -/
theorem storedWordIsFetched : Obligations.StoredWordIsFetched := by
  intro s hr hlow hend hodd
  have h0 : (s.stored (s.regRange 0x1#4)).mem.get s.I.toNat = s.readV 0x0#4 :=
    get_stored_regRange (j := 0x0#4) (by decide) (Nat.lt_of_succ_lt hend)
  have h1 : (s.stored (s.regRange 0x1#4)).mem.get (s.I.toNat + 1) = s.readV 0x1#4 :=
    get_stored_regRange (j := 0x1#4) (by decide) hend
  refine ⟨_, exec_ldMemI_of_fits hend, ?_⟩
  rw [step_of_fetchable (s := (s.stored (s.regRange 0x1#4)).setPc s.I) hr ⟨hend, hlow, hodd⟩, State.fetchedInstr]
  simp only [setPc_mem, setPc_pc, h0, h1]
  rfl

/-! ## The checked accesses -/

theorem memRead_refused {s : State} {a : Nat} (h : a < 0x200 ∨ 4096 ≤ a) :
    s.memRead a = .error (s.raise (.outOfBounds .read a)) := if_pos h

theorem memRead_ok {s : State} {a : Nat} (hlow : 0x200 ≤ a) (hend : a < 4096) : s.memRead a = .ok (s.mem.get a) :=
  if_neg (not_or.2 ⟨hlow.not_gt, hend.not_ge⟩)

theorem memWrite_refused {s : State} {a : Nat} (v : Byte) (h : 4096 ≤ a) :
    s.memWrite a v = .error (s.raise (.outOfBounds .write a)) := if_pos h

theorem memWrite_ok {s : State} {a : Nat} (v : Byte) (h : a < 4096) : s.memWrite a v = .ok (s.setMem (s.mem.set a v)) :=
  if_neg h.not_ge

theorem spriteRead_of_bound {s : State} (h : s.params.spriteReadLowerBound = true) (a : Nat) : s.spriteRead a = s.memRead a :=
  if_pos h

theorem spriteRefused_of_no_bound {p : Params} (h : p.spriteReadLowerBound = false) (a : Nat) :
    spriteRefused p a = decide (4096 ≤ a) := by
  simp [spriteRefused, h]

theorem bytesKeptOutside_set (s : State) (a : Nat) (v : Byte) : BytesKeptOutside a 1 s (s.setMem (s.mem.set a v)) :=
  fun _ hb => get_set_of_ne s.mem v (by omega)

/-- Settles O39: each access by its own bounds, SpriteRead under either SPRITE_READ_LOWER_BOUND. -/
theorem checkedAccessesFollowBounds : Obligations.CheckedAccessesFollowBounds := by
  refine ⟨fun s a h => ⟨_, memRead_refused h, ⟨rfl, rfl⟩, keepsAllBut_raise s _⟩, fun s a => memRead_ok,
    fun s a v h => ⟨_, memWrite_refused v h, ⟨rfl, rfl⟩, keepsAllBut_raise s _⟩,
    fun s a v h => ⟨_, memWrite_ok v h, get_set_self _ a v, bytesKeptOutside_set s a v, keepsAllBut_setMem s _⟩,
    fun s a h => spriteRead_of_bound h a, fun s a h => ?_⟩
  have href := spriteRefused_of_no_bound h a
  constructor
  · intro hend
    rw [spriteRead_eq, href, if_neg (by simpa using hend)]
  · intro hend
    rw [spriteRead_eq, href, if_pos (decide_eq_true hend)]
    exact ⟨_, rfl, ⟨rfl, rfl⟩, keepsAllBut_raise s _⟩

end Sys2Proof.Machine
end

section
/-! PROOF. DRW (spec/46_display.md R104 to R112): the sprite bit of the statements is the compositor's, a drawing XORs it onto every pixel, and a second drawing of the same sprite at the same place undoes the first. -/

namespace Sys2Proof.Machine

/-! ## The sprite's bits -/

theorem length_spriteRows (s : State) (n : Nibble) : (s.spriteRows n).length = n.toNat := by
  simp [State.spriteRows]

theorem spriteBitAt_iff (s : State) (x y : Reg) (n : Nibble) (px : Fin 64) (py : Fin 32) :
    spriteBitAt s x y n px py = true ↔ ∃ j < n.toNat, ∃ b < 8, px = wrapCol ((s.readV x).toNat + b) ∧
      py = wrapRow ((s.readV y).toNat + j) ∧ (s.mem.get (s.effAddr j)).getLsbD (7 - b) = true := by
  simp only [spriteBitAt, List.any_eq_true, List.mem_range, Bool.and_eq_true, decide_eq_true_eq, and_assoc, Fin.ext_iff,
    wrapCol, wrapRow, Fin.ofNat]

/-- The compositor's bit at a pixel (R106): the row byte and the column bit that land on it, where the sprite reaches. -/
theorem spriteBit_spriteRows_iff (s : State) (x y : Reg) (n : Nibble) (px : Fin 64) (py : Fin 32) :
    spriteBit (s.readV x).toNat (s.readV y).toNat 0 (s.spriteRows n) px py = true ↔
      rowOff (s.readV y).toNat py < n.toNat ∧ colOff (s.readV x).toNat px < 8 ∧
        (s.mem.get (s.effAddr (rowOff (s.readV y).toNat py))).getLsbD (7 - colOff (s.readV x).toNat px) = true := by
  unfold spriteBit State.spriteRows
  generalize rowOff (s.readV y).toNat py = j
  by_cases hj : j < n.toNat
  · simp [hj]
  · simp [hj]

theorem spriteBitAt_eq (s : State) (x y : Reg) (n : Nibble) (px : Fin 64) (py : Fin 32) :
    spriteBitAt s x y n px py = spriteBit (s.readV x).toNat (s.readV y).toNat 0 (s.spriteRows n) px py := by
  have hn : n.toNat < 16 := n.isLt
  rw [Bool.eq_iff_iff, spriteBitAt_iff, spriteBit_spriteRows_iff]
  constructor
  · rintro ⟨j, hj, b, hb, hx, hy, hbit⟩
    rw [eq_wrapCol_iff _ _ _ (by omega)] at hx
    rw [eq_wrapRow_iff _ _ _ (by omega)] at hy
    rw [hx, hy]
    exact ⟨hj, hb, hbit⟩
  · rintro ⟨hj, hb, hbit⟩
    exact ⟨_, hj, _, hb, (eq_wrapCol_iff _ _ _ (by omega)).2 rfl, (eq_wrapRow_iff _ _ _ (by omega)).2 rfl, hbit⟩

/-! ## One drawing -/

/-- The state after a drawing (R109). -/
def State.afterDraw (s : State) (x y : Reg) (n : Nibble) : State :=
  (s.setFb (s.drawn x y n).1).writeV regVF (flagOf (s.drawn x y n).2)

theorem drawn_spec (s : State) (x y : Reg) (n : Nibble) :
    (∀ px py, (s.drawn x y n).1.pixel px py = (s.fb.pixel px py ^^ spriteBitAt s x y n px py)) ∧
    ((s.drawn x y n).2 = true ↔ ∃ px py, spriteBitAt s x y n px py = true ∧ s.fb.pixel px py = true) := by
  have hn : n.toNat < 16 := n.isLt
  simp only [spriteBitAt_eq]
  exact composite_spec _ _ _ s.fb (by rw [length_spriteRows]; omega)

theorem pixel_afterDraw (s : State) (x y : Reg) (n : Nibble) (px : Fin 64) (py : Fin 32) :
    (s.afterDraw x y n).fb.pixel px py = (s.fb.pixel px py ^^ spriteBitAt s x y n px py) :=
  (drawn_spec s x y n).1 px py

theorem flagOf_eq_one_iff (c : Bool) : flagOf c = 1#8 ↔ c = true := by
  cases c <;> decide

theorem flagOf_cases (c : Bool) : flagOf c = 0#8 ∨ flagOf c = 1#8 := by
  cases c
  · exact .inl rfl
  · exact .inr rfl

theorem readVF_afterDraw (s : State) (x y : Reg) (n : Nibble) :
    (s.afterDraw x y n).readV regVF = flagOf (s.drawn x y n).2 := readV_writeV_self _ _ _

theorem readVF_afterDraw_eq_one_iff (s : State) (x y : Reg) (n : Nibble) :
    (s.afterDraw x y n).readV regVF = 1#8 ↔ ∃ px py, spriteBitAt s x y n px py = true ∧ s.fb.pixel px py = true := by
  rw [readVF_afterDraw, flagOf_eq_one_iff]
  exact (drawn_spec s x y n).2

theorem regsKeptBut_afterDraw (s : State) (x y : Reg) (n : Nibble) : RegsKeptBut [regVF] s (s.afterDraw x y n) :=
  regsKeptBut_writeV (s.setFb _) _ _

theorem keepsAllBut_afterDraw (s : State) (x y : Reg) (n : Nibble) : KeepsAllBut [.v, .fb] s (s.afterDraw x y n) :=
  ((keepsAllBut_setFb s _).mono (by simp)).trans ((keepsAllBut_writeV _ _ _).mono (by simp))

/-- Settles O42: a readable sprite is drawn, and the compositor's bit is the one that lands on each pixel. -/
theorem drwXorsSpriteAndReportsCollision : Obligations.DrwXorsSpriteAndReportsCollision := by
  refine ⟨fun w h => decode_of_classD (class_of_mask w 0xD#4 h), fun x y n s hread => ?_⟩
  exact ⟨s.afterDraw x y n, exec_drw_of_readable hread, pixel_afterDraw s x y n, readVF_afterDraw_eq_one_iff s x y n,
    readVF_afterDraw s x y n ▸ flagOf_cases _, regsKeptBut_afterDraw s x y n, keepsAllBut_afterDraw s x y n⟩

/-- A drawing of no rows writes 0 to VF and nothing else. -/
theorem exec_drw_of_no_rows (x y : Reg) (s : State) : exec (.drw x y 0x0#4) s = .next (s.writeV regVF 0#8) :=
  exec_drw_of_readable (n := 0x0#4) fun j hj => absurd hj j.not_lt_zero

/-- Settles O43: a sprite of no rows reads no byte, so it may be read whatever I holds. -/
theorem drwOfNoRowsClearsVF : Obligations.DrwOfNoRowsClearsVF := fun x y s =>
  ⟨_, exec_drw_of_no_rows x y s, readV_writeV_self s _ _, regsKeptBut_writeV s _ _, keepsAllBut_writeV s _ _⟩

/-- Settles O44: the first byte that may not be read ends the drawing before any pixel or VF is written. -/
theorem drwFailingReadChangesNothing : Obligations.DrwFailingReadChangesNothing := fun _ _ _ s _ hj hbad hgood =>
  ⟨_, exec_drw_of_refused hj hbad hgood, ⟨rfl, rfl⟩, keepsAllBut_raise s _⟩

/-! ## Two drawings -/

theorem spriteBitAt_afterDraw {s : State} {x y : Reg} {n : Nibble} (hx : (s.afterDraw x y n).readV x = s.readV x)
    (hy : (s.afterDraw x y n).readV y = s.readV y) (px : Fin 64) (py : Fin 32) :
    spriteBitAt (s.afterDraw x y n) x y n px py = spriteBitAt s x y n px py := by
  unfold spriteBitAt
  rw [hx, hy]
  rfl

theorem exists_getLsbD_of_ne_zero {b : Byte} (h : b ≠ 0#8) : ∃ k < 8, b.getLsbD k = true := by
  by_contra hno
  push Not at hno
  refine h (BitVec.eq_of_getLsbD_eq fun k hk => ?_)
  rw [BitVec.getLsbD_zero]
  exact Bool.eq_false_iff.2 (hno k hk)

/-- A 1 bit lands somewhere exactly when some row byte is not 0. -/
theorem exists_spriteBitAt_iff (s : State) (x y : Reg) (n : Nibble) :
    (∃ px py, spriteBitAt s x y n px py = true) ↔ ∃ j, j < n.toNat ∧ s.mem.get (s.effAddr j) ≠ 0#8 := by
  simp only [spriteBitAt_iff]
  constructor
  · rintro ⟨px, py, j, hj, b, _, _, _, hbit⟩
    refine ⟨j, hj, fun h0 => ?_⟩
    rw [h0, BitVec.getLsbD_zero] at hbit
    cases hbit
  · rintro ⟨j, hj, hne⟩
    obtain ⟨k, hk, hbit⟩ := exists_getLsbD_of_ne_zero hne
    exact ⟨_, _, j, hj, 7 - k, by omega, rfl, rfl, by rwa [show 7 - (7 - k) = k by omega]⟩

/-- Settles O45: at the same origin the same bits land on the same pixels, so the second XOR undoes the first, and it
collides where the first turned a pixel on. -/
theorem drawingTwiceRestoresPixels : Obligations.DrawingTwiceRestoresPixels := by
  intro x y n s t hread h hx hy
  obtain rfl : s.afterDraw x y n = t := Host.Outcome.next.inj ((exec_drw_of_readable hread).symm.trans h)
  have hcollide : ((s.afterDraw x y n).afterDraw x y n).readV regVF = 1#8 ↔
      ∃ px py, spriteBitAt s x y n px py = true ∧ s.fb.pixel px py = false := by
    rw [readVF_afterDraw_eq_one_iff]
    simp only [spriteBitAt_afterDraw hx hy, pixel_afterDraw]
    refine exists_congr fun px => exists_congr fun py => and_congr_right fun hbit => ?_
    rw [hbit, Bool.xor_true, Bool.not_eq_true']
  refine ⟨_, exec_drw_of_readable (s := s.afterDraw x y n) hread, fun px py => ?_, hcollide, fun hoff => ?_⟩
  · rw [← State.afterDraw, pixel_afterDraw, pixel_afterDraw, spriteBitAt_afterDraw hx hy, Bool.xor_assoc, Bool.xor_self,
      Bool.xor_false]
  · rw [← State.afterDraw, hcollide, ← exists_spriteBitAt_iff s x y n]
    exact exists_congr fun px => exists_congr fun py => and_iff_left_of_imp (hoff px py)

end Sys2Proof.Machine
end

section
/-! PROOF. The host's operations (spec/10_state.md R25, R26, R33, spec/70_reset_and_hazards.md R129 to R133): the values after reset(), what load() leaves at every address, and the saturating timers. -/

namespace Sys2Proof.Machine

/-! ## Reset content -/

/-- The glyph region lies below PROG_START, where an unlisted byte reads as the glyph byte (R5). -/
theorem unlisted_glyph (k : Fin 80) : unlisted (Config.glyphBase.val + k.val) = Config.glyphData k := by
  have hbase := Config.glyphBase.isLt
  have hk := k.isLt
  have hlow : Config.glyphBase.val + k.val < Config.progStart := by rw [progStart_eq]; omega
  rw [unlisted, if_pos hlow, glyphByte, dif_pos ⟨Nat.le_add_right _ _, Nat.add_lt_add_left hk _⟩]
  exact congrArg Config.glyphData (Fin.ext (Nat.add_sub_cancel_left ..))

theorem unlisted_outside_glyphs {a : Nat} (h : a < Config.glyphBase.val ∨ Config.glyphBase.val + 80 ≤ a) :
    unlisted a = 0#8 := by
  rw [unlisted, glyphByte, dif_neg (by omega), ite_self]

/-- Settles O58: reset() takes every element of R33's table from State.reset, whose memory lists nothing. -/
theorem hostResetGivesTabledValues : Obligations.HostResetGivesTabledValues := by
  intro s
  refine ⟨fun r => ?_, rfl, rfl, rfl, rfl, rfl, pixel_clear, rfl, unlisted_glyph, fun a => unlisted_outside_glyphs⟩
  exact Vector.getElem_replicate r.isLt

/-! ## load() -/

theorem load_mem (s : State) (bytes : List Byte) : (s.load bytes).mem = Memory.copyFrom [] 0x200 bytes := rfl

theorem copyFrom_past_end (m : Memory) {a : Nat} (bs : List Byte) (h : 4096 ≤ a) : m.copyFrom a bs = m := by
  induction bs generalizing a with
  | nil => rfl
  | cons b bs ih => rw [Memory.copyFrom, if_neg h.not_gt, ih (Nat.le_succ_of_le h)]

/-- The bytes that would lie past the end make no difference (R133). -/
theorem copyFrom_take (m : Memory) (a : Nat) (bs : List Byte) : m.copyFrom a bs = m.copyFrom a (bs.take (4096 - a)) := by
  induction bs generalizing m a with
  | nil => rw [List.take_nil]
  | cons b bs ih =>
    by_cases h : a < 4096
    · have hlen : 4096 - a = (4096 - (a + 1)) + 1 := by omega
      rw [hlen, List.take_succ_cons, Memory.copyFrom, Memory.copyFrom, ih]
    · rw [copyFrom_past_end m _ (not_lt.1 h), copyFrom_past_end m _ (not_lt.1 h)]

/-- Settles O59: the image lies from 0x200 to the end of memory over an empty list of bytes. -/
theorem loadCopiesImage : Obligations.LoadCopiesImage := by
  intro s bytes
  refine ⟨fun k hk hend => ?_, fun a ha => ?_, congrArg s.setMem (copyFrom_take [] 0x200 bytes), keepsAllBut_setMem s _⟩
  · have hoff : 0x200 + k - 0x200 = k := Nat.add_sub_cancel_left ..
    rw [load_mem, get_copyFrom, dif_pos ⟨by omega, by omega, by omega⟩]
    simp only [hoff]
  · rw [load_mem, get_copyFrom, dif_neg (by omega)]
    rfl

/-! ## Timers -/

theorem toNat_sub_one {b : Byte} (h : b ≠ 0#8) : (b - 1#8).toNat = b.toNat - 1 := by
  have hb : b.toNat < 256 := b.isLt
  have hpos : b.toNat ≠ 0 := fun h0 => h (BitVec.eq_of_toNat_eq h0)
  rw [BitVec.toNat_sub, BitVec.toNat_ofNat]
  omega

theorem keepsAllBut_timers (s : State) (d e : Byte) : KeepsAllBut [.timers] s { s with dt := d, st := e } := by
  intro p hp; cases p <;> simp_all [Kept, State.readV]

/-- Settles O60: away from 0 a decrement is exact, and at 0 nothing happens; ST expires where it was 1. -/
theorem timerDecrementsSaturate : Obligations.TimerDecrementsSaturate := by
  intro s
  have hdelay : s.decDelay.dt.toNat = s.dt.toNat - 1 ∧ s.decDelay.st = s.st ∧ KeepsAllBut [.timers] s s.decDelay := by
    rcases decDelay_cases s with ⟨he, hne⟩ | ⟨he, h0⟩
    · rw [he]; exact ⟨toNat_sub_one hne, rfl, keepsAllBut_timers s _ s.st⟩
    · rw [he, h0]; exact ⟨rfl, rfl, KeepsAllBut.refl _ s⟩
  have hsound : s.decSound.1.st.toNat = s.st.toNat - 1 ∧ s.decSound.1.dt = s.dt ∧ KeepsAllBut [.timers] s s.decSound.1 := by
    rcases decSound_cases s with ⟨he, hne⟩ | ⟨he, h0⟩
    · rw [he]; exact ⟨toNat_sub_one hne, rfl, keepsAllBut_timers s s.dt _⟩
    · rw [he, h0]; exact ⟨rfl, rfl, KeepsAllBut.refl _ s⟩
  obtain ⟨hdt, hst, hframe⟩ := hdelay
  obtain ⟨hst', hdt', hframe'⟩ := hsound
  have hexpired : s.decSound.2 = true ↔ s.st.toNat = 1 := by
    rw [State.decSound, beq_iff_eq, ← BitVec.toNat_inj]
    rfl
  exact ⟨hdt, hst, hframe, hst', hdt', hframe', hexpired⟩

end Sys2Proof.Machine
end
